-- ==== Sys2Proof/Word.lean ====
section
/-! DEFINITION. The word of the machine: one unsigned byte (R8). No quantity of the machine is wider than a byte
except the program counter, which is a natural number, and the exact integers that arithmetic passes through. -/

namespace Sys2Proof

/-- `Byte` of R8: the integers 0 to 255, as eight bits with bit 0 the least significant (R7). -/
abbrev Byte := BitVec 8

/-- The integer a byte spells. Every byte is read as unsigned (R8). -/
abbrev Byte.int (b : Byte) : Int := (b.toNat : Int)

end Sys2Proof
end

