-- ==== Sys2Proof/Syntax.lean ====
section
/-! DEFINITION. The instruction set as syntax: one constructor per row of spec/opcode_table.json (R65). -/

namespace Sys2Proof

/-- The ten instructions of R65, operands in the order of their bytes in memory (R71). A register number is the whole
operand byte read as an unsigned integer (R63): an index, so a `Nat`, bounded by `Instr.wf`. The immediate of LDI is
the byte itself (R64). -/
inductive Instr where
  /-- HLT, format Z (R89). -/
  | hlt
  /-- PUSH Rr, format R (R92). -/
  | push (r : Nat)
  /-- POP Rr, format R (R93). -/
  | pop (r : Nat)
  /-- PRN Rr, format R (R90). -/
  | prn (r : Nat)
  /-- JMP Rr, format R (R97). -/
  | jmp (r : Nat)
  /-- JNE Rr, format R (R98). -/
  | jne (r : Nat)
  /-- JEQ Rr, format R (R99). -/
  | jeq (r : Nat)
  /-- LDI Rr,imm, format RI (R102). -/
  | ldi (r : Nat) (imm : Byte)
  /-- MUL Ra,Rb, format RR (R106). -/
  | mul (ra rb : Nat)
  /-- CMP Ra,Rb, format RR (R107). -/
  | cmp (ra rb : Nat)
  deriving DecidableEq, Repr

end Sys2Proof
end

