-- ==== Sys2Proof/WellFormed.lean ====
section
/-! DEFINITION. Which terms of `Instr` are instructions of the machine: those whose register numbers each fit the one
operand byte that holds them (R63). A register number of 8 to 255 IS well formed: the machine decodes it, runs it and
raises `OutOfBounds` when the register is accessed. -/

namespace Sys2Proof

/-- A register operand is one whole byte (R57, R63). -/
def fitsOperandByte (r : Nat) : Bool := r < 256

/-- Well-formedness, by format (R60). -/
def Instr.wf : Instr → Bool
  | .hlt => true
  | .push r => fitsOperandByte r
  | .pop r => fitsOperandByte r
  | .prn r => fitsOperandByte r
  | .jmp r => fitsOperandByte r
  | .jne r => fitsOperandByte r
  | .jeq r => fitsOperandByte r
  | .ldi r _ => fitsOperandByte r
  | .mul ra rb => fitsOperandByte ra && fitsOperandByte rb
  | .cmp ra rb => fitsOperandByte ra && fitsOperandByte rb

end Sys2Proof
end

