-- ==== Sys2Proof/Decode.lean ====
section
/-! DEFINITION. The decoder (R58, R59), the two dispatch tables (R65, R66), decoding of a byte sequence, total and
rejecting by name (R67), and the encoder, written from the same opcode values. -/

namespace Sys2Proof

/-! ### The opcode bytes (R65) -/

namespace Opcode
/-- HLT, 0x01. -/
abbrev hlt : Byte := 0x01
/-- PUSH, 0x45. -/
abbrev push : Byte := 0x45
/-- POP, 0x46. -/
abbrev pop : Byte := 0x46
/-- PRN, 0x47. -/
abbrev prn : Byte := 0x47
/-- JMP, 0x54. -/
abbrev jmp : Byte := 0x54
/-- JNE, 0x55: the document's value, followed by the spec although published LS-8 lists swap it with JEQ (R65, GK2). -/
abbrev jne : Byte := 0x55
/-- JEQ, 0x56: as for JNE. -/
abbrev jeq : Byte := 0x56
/-- LDI, 0x82. -/
abbrev ldi : Byte := 0x82
/-- MUL, 0xA2. -/
abbrev mul : Byte := 0xA2
/-- CMP, 0xA7. -/
abbrev cmp : Byte := 0xA7
end Opcode

/-! ### The decoder: four fields of the opcode byte (R58) -/

/-- `operand_count = (opcode >> 6) & 0b11`. -/
def operandCount (op : Byte) : Nat := ((op >>> 6) &&& 0b11#8).toNat

/-- `is_alu_op = (opcode >> 5) & 0b1`. -/
def isAluOp (op : Byte) : Bool := ((op >>> 5) &&& 0b1#8) == 1#8

/-- `sets_pc = (opcode >> 4) & 0b1`. -/
def setsPc (op : Byte) : Bool := ((op >>> 4) &&& 0b1#8) == 1#8

/-- `instruction_id = opcode & 0b1111`: decoded, and used by nothing in the core (R74). -/
def instructionId (op : Byte) : Nat := (op &&& 0b1111#8).toNat

/-- Length of an instruction for the run loop, mapped or not (R61). -/
def instrLength (op : Byte) : Nat := 1 + operandCount op

/-! ### Dispatch (R66) -/

/-- The eight ordinary instructions: what each opcode makes of its first and second operand byte. -/
def ordinaryTable : List (Byte × (Byte → Byte → Instr)) :=
  [ (Opcode.hlt,  fun _ _ => .hlt),
    (Opcode.push, fun r _ => .push r.toNat),
    (Opcode.pop,  fun r _ => .pop r.toNat),
    (Opcode.prn,  fun r _ => .prn r.toNat),
    (Opcode.jmp,  fun r _ => .jmp r.toNat),
    (Opcode.jne,  fun r _ => .jne r.toNat),
    (Opcode.jeq,  fun r _ => .jeq r.toNat),
    (Opcode.ldi,  fun r imm => .ldi r.toNat imm) ]

/-- The two ALU instructions, which receive two register numbers. -/
def aluTable : List (Byte × (Byte → Byte → Instr)) :=
  [ (Opcode.mul, fun a b => .mul a.toNat b.toNat),
    (Opcode.cmp, fun a b => .cmp a.toNat b.toNat) ]

/-- The table an opcode byte is looked up in is chosen by its bit 5 alone (R66, R80). -/
def dispatchTable (op : Byte) : List (Byte × (Byte → Byte → Instr)) :=
  if isAluOp op then aluTable else ordinaryTable

/-- Look up the whole opcode byte in its table; `none` is an unmapped opcode (R67). -/
def dispatch (op : Byte) : Option (Byte → Byte → Instr) := (dispatchTable op).lookup op

/-- The instruction an opcode byte and the two bytes after it spell. An instruction with fewer operands ignores the
bytes it does not have. -/
def assemble (op b1 b2 : Byte) : Option Instr := (dispatch op).map (fun mk => mk b1 b2)

/-! ### Decoding a byte sequence -/

/-- Why a byte sequence is no instruction. -/
inductive DecodeError where
  /-- There is no byte to decode. -/
  | noBytes
  /-- The first byte is unmapped (R67). -/
  | unknownOpcode (op : Byte)
  /-- The opcode is mapped and the sequence ends before its last operand byte (R86). -/
  | truncated (op : Byte)
  deriving DecidableEq, Repr

/-- Decode the instruction at the front of a byte sequence; answer it with the bytes that follow it. -/
def decode : List Byte → Except DecodeError (Instr × List Byte)
  | [] => .error .noBytes
  | op :: rest =>
    match dispatch op with
    | none => .error (.unknownOpcode op)
    | some mk =>
      match operandCount op, rest with
      | 0, rest => .ok (mk 0 0, rest)
      | 1, b1 :: rest => .ok (mk b1 0, rest)
      | 2, b1 :: b2 :: rest => .ok (mk b1 b2, rest)
      | _, _ => .error (.truncated op)

/-! ### Encoding -/

/-- The opcode byte of an instruction (R65). -/
def Instr.opcode : Instr → Byte
  | .hlt => Opcode.hlt
  | .push _ => Opcode.push
  | .pop _ => Opcode.pop
  | .prn _ => Opcode.prn
  | .jmp _ => Opcode.jmp
  | .jne _ => Opcode.jne
  | .jeq _ => Opcode.jeq
  | .ldi _ _ => Opcode.ldi
  | .mul _ _ => Opcode.mul
  | .cmp _ _ => Opcode.cmp

/-- The byte that holds a register number (R63); meaningful when the number fits (`Instr.wf`). -/
def registerByte (r : Nat) : Byte := BitVec.ofNat 8 r

/-- The operand bytes of an instruction, in address order (R57, R60). -/
def Instr.operandBytes : Instr → List Byte
  | .hlt => []
  | .push r => [registerByte r]
  | .pop r => [registerByte r]
  | .prn r => [registerByte r]
  | .jmp r => [registerByte r]
  | .jne r => [registerByte r]
  | .jeq r => [registerByte r]
  | .ldi r imm => [registerByte r, imm]
  | .mul ra rb => [registerByte ra, registerByte rb]
  | .cmp ra rb => [registerByte ra, registerByte rb]

/-- The bytes of a well-formed instruction, opcode first (R57). -/
def encode (i : Instr) : List Byte := i.opcode :: i.operandBytes

/-! ### The opcode table's numbering of an instruction's bits -/

/-- The bytes of the longest instruction, from a number whose least significant byte is the first byte in memory.
Bits at and above `nbits` are zero. -/
def tableBytes (nbits w : Nat) : List Byte :=
  let w := w % 2 ^ nbits
  [BitVec.ofNat 8 w, BitVec.ofNat 8 (w / 256), BitVec.ofNat 8 (w / 65536)]

/-- The instruction the decoder reads from an opcode-table word; `none` where it refuses. -/
def decodeTableWord (nbits w : Nat) : Option Instr :=
  match decode (tableBytes nbits w) with
  | .ok (i, _) => some i
  | .error _ => none

end Sys2Proof
end

