-- ==== Sys2Proof/Config.lean ====
section
/-! DEFINITION. The parameters of the design (the table of R6). The spec fixes every one of them and leaves none open
(R88: there is no non-determinism and no oracle), so this file holds no free value. -/

namespace Sys2Proof.Config

/-- `MEM_SIZE`: cells of main memory (R6, R14). -/
abbrev memSize : Nat := 256

/-- `REG_COUNT`: cells of the register file (R6, R15). -/
abbrev regCount : Nat := 8

/-- `SP_INDEX`: the register PUSH and POP use as stack pointer (R6, R17). -/
abbrev spIndex : Nat := 7

/-- `SP_RESET`: reset value of register 7 (R6, R32). -/
abbrev spReset : Byte := 0xF4

/-- `PC_RESET` (R6, R32; the spec's decision D1). -/
abbrev pcReset : Nat := 0

/-- `FL_RESET` (R6, R32; the spec's decision D2). -/
abbrev flReset : Byte := 0x00

/-- `IR_RESET` (R6, R32; the spec's decision D3). -/
abbrev irReset : Byte := 0x00

/-- `FL_RUNNING` (R6, R18). -/
abbrev flRunning : Nat := 7

/-- `FL_LESS` (R6, R18). -/
abbrev flLess : Nat := 2

/-- `FL_GREATER` (R6, R18). -/
abbrev flGreater : Nat := 1

/-- `FL_EQUAL` (R6, R18). -/
abbrev flEqual : Nat := 0

/-- `LOAD_BASE`: address of the first loaded program byte (R6, R131). -/
abbrev loadBase : Nat := 0

end Sys2Proof.Config
end

