-- ==== Sys2Proof/Machine/State.lean ====
section
/-! DEFINITION. The architectural state of the core, exactly the eight items of R13, as plain data; the error kinds
that end an instruction (R109 to R111); the machine right after reset (R32, R129). -/

namespace Sys2Proof.Machine

/-- The two GuardedMemory instances of the core, and no others (R35, R41). -/
inductive Store where
  /-- Main memory (R14). -/
  | ram
  /-- The register file (R15). -/
  | reg
  deriving DecidableEq, Repr

/-- The fixed capacity of a store (R35). -/
def Store.size : Store → Nat
  | .ram => Config.memSize
  | .reg => Config.regCount

/-- The fatal error kinds of R109, with the information R115 records. A guarded `read` or `write` raises them (R36,
R37). Inside a cycle the engine latches the error and the machine goes to a next state with status FAULTED (R114), so
`step` and `exec` never END in one; `State.launch` does not either. The loader is told of one as the second component
of `State.load` (R132). Safe: an error is always visible in the state or in the loader's answer. -/
inductive Fault where
  /-- Raised by an access to `store` at an address or index outside it (R110). Safe. -/
  | outOfBounds (store : Store) (addr : Int)
  /-- Raised by a write to `store`, at an address inside it, of a value outside 0 to 255 (R111). Safe. -/
  | invalidByteValue (store : Store) (addr value : Int)
  deriving DecidableEq, Repr

/-- Why the model gives no meaning. -/
inductive Refusal where
  /-- An instruction with no meaning yet, by its mnemonic. No arm of `exec` raises it: all ten are modelled. Safe. -/
  | notModelled (mnemonic : String)
  /-- Raised by `State.launch` only: a run started after a failed load is outside the specification (R132). Safe. -/
  | runAfterFailedLoad (loaderError : Fault)
  deriving DecidableEq, Repr

/-- A GuardedMemory (R35): its cells as pairs of an address and a byte, in the canonical form `Memory.wf` (addresses
strictly rising and inside the store, no entry equal to what an unlisted address reads as). -/
structure Memory (m : Store) where
  cells : List Host.Cell
  deriving DecidableEq, Repr

/-- One report of the unknown-opcode fallback (R30): the opcode byte and the address it was fetched from. -/
structure Report where
  opcode : Byte
  address : Nat
  deriving DecidableEq, Repr

/-- The state of the core: the eight items of R13. The stack pointer is no ninth item, it is register 7 (R17). -/
structure State where
  /-- Main memory, 256 bytes (R14). -/
  ram : Memory .ram
  /-- The register file, 8 bytes, register 7 the stack pointer (R15, R17). -/
  reg : Memory .reg
  /-- The program counter; never negative and never wrapped (R22, R24). -/
  pc : Nat
  /-- The instruction register (R25). -/
  ir : Byte
  /-- The flags register (R18). -/
  fl : Byte
  /-- The FAULT latch (R28). -/
  fault : Option Fault
  /-- The output stream OUT, oldest first (R29). -/
  out : List Byte
  /-- The diagnostic stream DIAG, oldest first (R30). -/
  diag : List Report
  deriving DecidableEq, Repr

/-- The machine right after reset (R32): every RAM cell 0, R0 to R6 0, R7 0xF4, and PC, FL, IR, FAULT, OUT and DIAG at
the values of the spec's decisions D1, D2, D3, D12 and D29. -/
def State.reset : State where
  ram := ⟨[]⟩
  reg := ⟨[(Config.spIndex, Config.spReset)]⟩
  pc := Config.pcReset
  ir := Config.irReset
  fl := Config.flReset
  fault := none
  out := []
  diag := []

end Sys2Proof.Machine
end

