-- ==== Sys2Proof/Machine/Flags.lean ====
section
/-! DEFINITION. The flags register FL (R18 to R21): its bits, the writes that change them, and the flag computation of
CMP (R107). No other instruction writes a comparison flag. -/

namespace Sys2Proof.Machine

/-- RUNNING, bit 7 (R18). -/
def State.running (s : State) : Bool := s.fl.getLsbD Config.flRunning

/-- LESS, bit 2 (R18). -/
def State.less (s : State) : Bool := s.fl.getLsbD Config.flLess

/-- GREATER, bit 1 (R18). -/
def State.greater (s : State) : Bool := s.fl.getLsbD Config.flGreater

/-- EQUAL, bit 0 (R18). -/
def State.equal (s : State) : Bool := s.fl.getLsbD Config.flEqual

/-- `FL[7] <- 0`, the HLT handler's write: `FL & 0x7F` (R89). -/
def flClearRunning (fl : Byte) : Byte := fl &&& 0x7F

/-- `FL[7] <- 1`, run start's write (R76, R133). -/
def flSetRunning (fl : Byte) : Byte := fl ||| 0x80

/-- CMP's write of LESS, GREATER and EQUAL from the unsigned order of two bytes, every other bit kept (R107). -/
def flCompare (fl va vb : Byte) : Byte :=
  (fl &&& 0xF8)
    ||| (if va.toNat < vb.toNat then 0x04 else 0)
    ||| (if va.toNat > vb.toNat then 0x02 else 0)
    ||| (if va.toNat = vb.toNat then 0x01 else 0)

end Sys2Proof.Machine
end

