-- ==== Sys2Proof/Machine/Ops.lean ====
section
/-! DEFINITION. The operations the meanings share: the GuardedMemory contract (R35 to R39), the state's accessors and
updates, the primitives of R9 as handlers that keep what they wrote when they raise (R10), taking a fatal fault
(R114), the advance of step 4 (R84), and the frame every instruction runs in. -/

namespace Sys2Proof.Machine

/-! ### GuardedMemory -/

/-- What an address that no cell lists reads as: cells are "all initialized to 0" (R14, R35). -/
abbrev unlistedByte : Byte := 0x00

/-- The byte a cell list holds at an address. -/
def cellAt (a : Nat) : List Host.Cell → Byte
  | [] => unlistedByte
  | (b, v) :: rest => if a = b then v else cellAt a rest

/-- List a byte at an address, in rising order, in place of what was listed there. -/
def insertCell (a : Nat) (v : Byte) : List Host.Cell → List Host.Cell
  | [] => [(a, v)]
  | (b, w) :: rest =>
    if a < b then (a, v) :: (b, w) :: rest
    else if a = b then (a, v) :: rest
    else (b, w) :: insertCell a v rest

/-- Unlist an address. -/
def removeCell (a : Nat) : List Host.Cell → List Host.Cell
  | [] => []
  | (b, w) :: rest => if a = b then removeCell a rest else (b, w) :: removeCell a rest

/-- Make the byte at an address `v`; the value an unlisted address reads as is not listed. -/
def putCell (a : Nat) (v : Byte) (cells : List Host.Cell) : List Host.Cell :=
  if v = unlistedByte then removeCell a cells else insertCell a v cells

/-- Canonical form from a lowest address on: strictly rising addresses below `size`, no listed `unlistedByte`. -/
def canonicalFrom (lo size : Nat) : List Host.Cell → Bool
  | [] => true
  | (a, v) :: rest => lo ≤ a && a < size && v != unlistedByte && canonicalFrom (a + 1) size rest

/-- The store's cells are in canonical form, so that equal contents are equal data. -/
def Memory.wf {m : Store} (mem : Memory m) : Bool := canonicalFrom 0 m.size mem.cells

/-- The stored value of a cell, with no check (the `M.cell[a]` of R36). -/
def Memory.peek {m : Store} (mem : Memory m) (a : Nat) : Byte := cellAt a mem.cells

/-- Store a byte in a cell, with no check (the `M.cell[a] <- v` of R37). -/
def Memory.poke {m : Store} (mem : Memory m) (a : Nat) (v : Byte) : Memory m := ⟨putCell a v mem.cells⟩

/-- Bytes stored at ascending addresses, with no check. -/
def placeBytes (a : Nat) : List Byte → Memory .ram → Memory .ram
  | [], mem => mem
  | b :: rest, mem => placeBytes (a + 1) rest (mem.poke a b)

/-- An address of a store (R8), as a proposition; `Store.inRange` decides it. -/
abbrev Store.valid (m : Store) (a : Int) : Prop := 0 ≤ a ∧ a < m.size

/-- The bounds check of R36 and R37: fails when `a < 0` or `a >= size`. -/
def Store.inRange (m : Store) : Int → Bool
  | .ofNat n => n < m.size
  | .negSucc _ => false

/-- The value check of R37: the byte an integer is, when it is one of 0 to 255. -/
def byteOfInt : Int → Option Byte
  | .ofNat n => if n < 256 then some (BitVec.ofNat 8 n) else none
  | .negSucc _ => none

/-- `M.read(a)` (R36). -/
def Memory.read {m : Store} (mem : Memory m) (a : Int) : Except Fault Byte :=
  if m.inRange a then .ok (mem.peek a.toNat) else .error (.outOfBounds m a)

/-- `M.write(a, v)`: the address check first, the value check second (R37). -/
def Memory.write {m : Store} (mem : Memory m) (a v : Int) : Except Fault (Memory m) :=
  if m.inRange a then
    match byteOfInt v with
    | some b => .ok (mem.poke a.toNat b)
    | none => .error (.invalidByteValue m a v)
  else .error (.outOfBounds m a)

/-- `M.clear()`: every cell 0 (R38). -/
def Memory.clear {m : Store} (_ : Memory m) : Memory m := ⟨[]⟩

/-! ### The fault record (R109, R115) -/

/-- The two fatal kinds. -/
inductive FaultKind where
  | outOfBounds
  | invalidByteValue
  deriving DecidableEq, Repr

/-- The field `kind` of the record. -/
def Fault.kind : Fault → FaultKind
  | .outOfBounds _ _ => .outOfBounds
  | .invalidByteValue _ _ _ => .invalidByteValue

/-- The field `store` of the record. -/
def Fault.store : Fault → Store
  | .outOfBounds m _ => m
  | .invalidByteValue m _ _ => m

/-- The field `addr` of the record. -/
def Fault.addr : Fault → Int
  | .outOfBounds _ a => a
  | .invalidByteValue _ a _ => a

/-- The field `value` of the record, absent for `OutOfBounds` (R115). -/
def Fault.value : Fault → Option Int
  | .outOfBounds _ _ => none
  | .invalidByteValue _ _ v => some v

/-- The numeric code of the latch for a hardware port: 0 no fault, 1 `OutOfBounds`, 2 `InvalidByteValue` (R109). -/
def faultCode : Option Fault → Nat
  | none => 0
  | some (.outOfBounds _ _) => 1
  | some (.invalidByteValue _ _ _) => 2

/-! ### Accessors and updates of the state -/

/-- `x[i]`, the value of a register (R15). -/
def State.x (s : State) (i : Nat) : Byte := s.reg.peek i

/-- SP, an alias of `x[7]` (R17). -/
def State.sp (s : State) : Byte := s.x Config.spIndex

/-- Replace main memory. -/
def State.setRam (s : State) (m : Memory .ram) : State := { s with ram := m }

/-- Replace the register file. -/
def State.setReg (s : State) (m : Memory .reg) : State := { s with reg := m }

/-- Put a byte in a register, with no check. -/
def State.setX (s : State) (i : Nat) (v : Byte) : State := s.setReg (s.reg.poke i v)

/-- Put a byte in a RAM cell, with no check. -/
def State.setByte (s : State) (a : Nat) (v : Byte) : State := s.setRam (s.ram.poke a v)

/-- `pc <- n`. -/
def State.setPc (s : State) (n : Nat) : State := { s with pc := n }

/-- `ir <- b`. -/
def State.setIr (s : State) (b : Byte) : State := { s with ir := b }

/-- `FL <- f`. -/
def State.setFl (s : State) (f : Byte) : State := { s with fl := f }

/-- Replace the FAULT latch. -/
def State.setFault (s : State) (f : Option Fault) : State := { s with fault := f }

/-- `Out(v)`: append to OUT (R9, R29). -/
def State.emit (s : State) (v : Byte) : State := { s with out := s.out ++ [v] }

/-- `Diag(UnknownOpcode, op, at)`: append to DIAG (R9, R30). -/
def State.addReport (s : State) (op : Byte) (address : Nat) : State := { s with diag := s.diag ++ [⟨op, address⟩] }

/-- The three statuses of R27. -/
inductive Status where
  /-- RUNNING clear and no fault; IDLE is the first such period after reset. -/
  | halted
  /-- RUNNING set and no fault. -/
  | running
  /-- The FAULT latch is set. -/
  | faulted
  deriving DecidableEq, Repr

/-- Status is computed, not stored (R27). -/
def State.status (s : State) : Status :=
  match s.fault with
  | some _ => .faulted
  | none => if s.running then .running else .halted

/-! ### Taking a fatal fault -/

/-- Entry into a fatal fault (R114): the latch takes the record of the error, once; nothing else changes. There is no
vector, no saved register and no mode. There is no return either (R121): only `State.reset` leaves FAULTED. -/
def State.takeFault (f : Fault) (s : State) : State := s.setFault (s.fault.or (some f))

/-! ### Handlers: the pseudocode of the rules -/

/-- A piece of pseudocode. It raises a fatal error with the state it had already made: nothing is undone (R10, R116). -/
abbrev Handler (α : Type) := EStateM Fault State α

/-- `x[i]` (R9). -/
def readReg (i : Int) : Handler Byte := fun s =>
  match s.reg.read i with
  | .ok v => .ok v s
  | .error f => .error f s

/-- `x[i] <- v` (R9). -/
def writeReg (i v : Int) : Handler Unit := fun s =>
  match s.reg.write i v with
  | .ok m => .ok () (s.setReg m)
  | .error f => .error f s

/-- `MemRead(a, 1)` (R9). -/
def memRead (a : Int) : Handler Byte := fun s =>
  match s.ram.read a with
  | .ok v => .ok v s
  | .error f => .error f s

/-- `MemWrite(a, 1, v)` (R9). -/
def memWrite (a v : Int) : Handler Unit := fun s =>
  match s.ram.write a v with
  | .ok m => .ok () (s.setRam m)
  | .error f => .error f s

/-- The HLT handler, `FL[7] <- 0` (R89). The unknown-opcode fallback performs the same handler (R83). -/
def haltHandler : Handler Unit := modify (fun s => s.setFl (flClearRunning s.fl))

/-! ### The frame of an instruction -/

/-- Step 4 of the cycle, by the fields of the opcode byte: `sets_pc` clear adds the length, with no wrap (R84, R24). -/
def State.advance (op : Byte) (s : State) : State :=
  if setsPc op then s else s.setPc (s.pc + instrLength op)

/-- Steps 3 and 4 for the handler of one opcode byte: when it returns, the advance; when it raises, the fault is taken
and step 4 is not performed (R77, R10). -/
def runHandler (op : Byte) (h : Handler Unit) (s : State) : Host.Outcome State Fault Refusal :=
  match h.run s with
  | .ok _ s' => .next (s'.advance op)
  | .error f s' => .next (s'.takeFault f)

end Sys2Proof.Machine
end

