-- ==== Sys2Proof/Machine/Operands.lean ====
section
/-! DEFINITION. The operand forms (R57, R63, R64): operand bytes are read from RAM at `pc+1` and `pc+2`, a register
operand is an unmasked index, the stack operand is the cell that register 7 points at (R91). -/

namespace Sys2Proof.Machine

/-- The read of the operand byte at `pc+k`, which raises `OutOfBounds(RAM, pc+k)` past the end of RAM (R81, R82, R86).
The byte it delivers is the operand the instruction already carries, decoded from that same address. -/
def fetchOperand (k : Nat) : Handler Unit := do
  let s ← get
  let _ ← memRead (s.pc + k : Nat)

/-- The ALU path's two operand reads, made by the engine for a mapped ALU opcode, `pc+1` first (R81). -/
def fetchAluOperands : Handler Unit := do
  fetchOperand 1
  fetchOperand 2

/-- `SP` read (R17). -/
def readSp : Handler Byte := readReg Config.spIndex

/-- `SP <- v`, a guarded register write (R17). -/
def writeSp (v : Int) : Handler Unit := writeReg Config.spIndex v

end Sys2Proof.Machine
end

