-- ==== Sys2Proof/Machine/Alu.lean ====
section
/-! DEFINITION. MUL and CMP (45_alu.md). The engine reads both operand bytes before the handler runs (R81, R103). -/

namespace Sys2Proof.Machine

/-- MUL (R106): register `ra` becomes the exact product, offered to the range-checked write; a product above 255 raises
`InvalidByteValue`, with no wrap and no saturation (R105). -/
def execMul (ra rb : Nat) (s : State) : Host.Outcome State Fault Refusal :=
  runHandler Opcode.mul
    (do fetchAluOperands
        let va ← readReg ra
        let vb ← readReg rb
        writeReg ra (va.int * vb.int)) s

/-- CMP (R107): LESS, GREATER and EQUAL from the unsigned order of the two registers. -/
def execCmp (ra rb : Nat) (s : State) : Host.Outcome State Fault Refusal :=
  runHandler Opcode.cmp
    (do fetchAluOperands
        let va ← readReg ra
        let vb ← readReg rb
        modify (fun s => s.setFl (flCompare s.fl va vb))) s

end Sys2Proof.Machine
end

