-- ==== Sys2Proof/Machine/Branch.lean ====
section
/-! DEFINITION. JMP, JNE and JEQ (43_branch.md). All three have `sets_pc = 1`, so step 4 does nothing for them and the
handler alone decides PC (R96). -/

namespace Sys2Proof.Machine

/-- The action of JMP, which a taken branch shares (R97 to R99): PC becomes the value of register `r`. -/
def jumpHandler (r : Nat) : Handler Unit := do
  fetchOperand 1
  let t ← readReg r
  modify (fun s => s.setPc t.toNat)

/-- The not-taken path: step over the branch's own two bytes, reading no operand (R98, R99, R101). -/
def skipHandler : Handler Unit := modify (fun s => s.setPc (s.pc + 2))

/-- JMP (R97). -/
def execJmp (r : Nat) (s : State) : Host.Outcome State Fault Refusal :=
  runHandler Opcode.jmp (jumpHandler r) s

/-- JNE (R98): as JMP when EQUAL is clear. -/
def execJne (r : Nat) (s : State) : Host.Outcome State Fault Refusal :=
  runHandler Opcode.jne (if s.equal then skipHandler else jumpHandler r) s

/-- JEQ (R99): as JMP when EQUAL is set. -/
def execJeq (r : Nat) (s : State) : Host.Outcome State Fault Refusal :=
  runHandler Opcode.jeq (if s.equal then jumpHandler r else skipHandler) s

end Sys2Proof.Machine
end

