-- ==== Sys2Proof/Machine/LoadImm.lean ====
section
/-! DEFINITION. LDI (44_ldi.md). -/

namespace Sys2Proof.Machine

/-- LDI (R102): register `r` becomes the immediate byte, unsigned, with no extension (R64). -/
def execLdi (r : Nat) (imm : Byte) (s : State) : Host.Outcome State Fault Refusal :=
  runHandler Opcode.ldi
    (do fetchOperand 1
        fetchOperand 2
        writeReg r imm.int) s

end Sys2Proof.Machine
end

