-- ==== Sys2Proof/Machine/Stack.lean ====
section
/-! DEFINITION. PUSH and POP (42_stack.md): the stack grows down in RAM, register 7 points at its top (R91). -/

namespace Sys2Proof.Machine

/-- PUSH (R92): lower SP, then store register `r`, read AFTER the decrement, at the new SP. -/
def execPush (r : Nat) (s : State) : Host.Outcome State Fault Refusal :=
  runHandler Opcode.push
    (do fetchOperand 1
        let sp ← readSp
        writeSp (sp.int - 1)
        let v ← readReg r
        let sp' ← readSp
        memWrite sp'.int v.int) s

/-- POP (R93): load the byte at SP into register `r`, then raise SP, read AFTER that write. -/
def execPop (r : Nat) (s : State) : Host.Outcome State Fault Refusal :=
  runHandler Opcode.pop
    (do fetchOperand 1
        let sp ← readSp
        let v ← memRead sp.int
        writeReg r v.int
        let sp' ← readSp
        writeSp (sp'.int + 1)) s

end Sys2Proof.Machine
end

