-- ==== Sys2Proof/Machine/System.lean ====
section
/-! DEFINITION. HLT and PRN (41_system.md), and the unknown-opcode fallback (R83). -/

namespace Sys2Proof.Machine

/-- HLT (R89): clear RUNNING. No operand byte is read, so HLT cannot fault; step 4 still advances PC (R85). -/
def execHlt (s : State) : Host.Outcome State Fault Refusal :=
  runHandler Opcode.hlt haltHandler s

/-- PRN (R90): append the value of register `r` to OUT. -/
def execPrn (r : Nat) (s : State) : Host.Outcome State Fault Refusal :=
  runHandler Opcode.prn
    (do fetchOperand 1
        let v ← readReg r
        modify (fun s => s.emit v)) s

/-- The fallback for an unmapped opcode byte (R83, R67): report it with the address it was fetched from, perform the
HLT handler in its place, then step 4 with the byte's own fields. No operand byte is read (R80). -/
def unknownOpcode (op : Byte) (s : State) : Host.Outcome State Fault Refusal :=
  runHandler op
    (do modify (fun s => s.addReport op s.pc)
        haltHandler) s

end Sys2Proof.Machine
end

