-- ==== Sys2Proof/Machine/Dispatch.lean ====
section
/-! DEFINITION. One arm per instruction: steps 3 and 4 of the cycle for it (R77). -/

namespace Sys2Proof.Machine

def exec (i : Instr) (s : State) : Host.Outcome State Fault Refusal :=
  match i with
  | .hlt => Sys2Proof.Machine.execHlt s
  | .push r => Sys2Proof.Machine.execPush r s
  | .pop r => Sys2Proof.Machine.execPop r s
  | .prn r => Sys2Proof.Machine.execPrn r s
  | .jmp r => Sys2Proof.Machine.execJmp r s
  | .jne r => Sys2Proof.Machine.execJne r s
  | .jeq r => Sys2Proof.Machine.execJeq r s
  | .ldi r imm => Sys2Proof.Machine.execLdi r imm s
  | .mul ra rb => Sys2Proof.Machine.execMul ra rb s
  | .cmp ra rb => Sys2Proof.Machine.execCmp ra rb s

end Sys2Proof.Machine
end

