-- ==== Sys2Proof/Machine/Cycle.lean ====
section
/-! DEFINITION. One pass of fetch, decode, execute, advance (R77). -/

namespace Sys2Proof.Machine

/-- Step 1, fetch (R78): IR becomes the byte at PC; a PC of 256 or more raises, and IR keeps its value. -/
def fetchOpcode : Handler Byte := do
  let s ← get
  let op ← memRead (s.pc : Nat)
  modify (fun s => s.setIr op)
  return op

/-- Step 2 and the table lookup of step 3 (R79, R80): the instruction that the fetched byte and the two bytes after it
spell. An operand byte past the end of RAM is shown here as `unlistedByte`; no meaning uses it, because its own read of
that byte raises first, or the form reads no operand (log entry 5). -/
def decodeAt (op : Byte) (s : State) : Option Instr :=
  assemble op (s.ram.peek (s.pc + 1)) (s.ram.peek (s.pc + 2))

/-- One cycle (R77). -/
def cycle (s : State) : Host.Outcome State Fault Refusal :=
  match fetchOpcode.run s with
  | .error f s' => .next (s'.takeFault f)
  | .ok op s' =>
    match decodeAt op s' with
    | some i => exec i s'
    | none => unknownOpcode op s'

/-- The run loop's test before each cycle (R75): a cycle when RUNNING, no change of state otherwise. -/
def runLoop (s : State) : Host.Outcome State Fault Refusal :=
  match s.status with
  | .running => cycle s
  | .halted => .next s
  | .faulted => .next s

end Sys2Proof.Machine
end

