-- ==== Sys2Proof/Machine/HostEvents.lean ====
section
/-! DEFINITION. The external events, taken between cycles (R130): reset, load, run start and snapshot, with the boot
sequence and the text the output sink shows. They are inputs to the machine, not steps of it. -/

namespace Sys2Proof.Machine

/-- Write a byte sequence at ascending addresses through the guarded write; the first failure is the loader's, and the
rest of the sequence is abandoned (R131, R132). -/
def loadBytes (a : Nat) : List Int → Memory .ram → Memory .ram × Option Fault
  | [], mem => (mem, none)
  | b :: rest, mem =>
    match mem.write a b with
    | .ok mem' => loadBytes (a + 1) rest mem'
    | .error f => (mem, some f)

/-- Load (R131): in status HALTED, clear RAM and write the bytes from address 0; ignored in any other status. The second
component is the loader's error, which is not latched (R132). -/
def State.load (bytes : List Int) (s : State) : State × Option Fault :=
  match s.status with
  | .halted =>
    let r := loadBytes Config.loadBase bytes s.ram.clear
    (s.setRam r.1, r.2)
  | .running => (s, none)
  | .faulted => (s, none)

/-- Run start (R133): in status HALTED, set RUNNING and nothing else; no effect in any other status. -/
def State.runStart (s : State) : State :=
  match s.status with
  | .halted => s.setFl (flSetRunning s.fl)
  | .running => s
  | .faulted => s

/-- The events that change the state. -/
inductive Event where
  /-- Reset, in any status (R129). -/
  | reset
  /-- Load of a byte sequence (R131). -/
  | load (bytes : List Int)
  /-- Run start (R133). -/
  | runStart
  deriving DecidableEq, Repr

/-- The state an event leaves. -/
def State.take (e : Event) (s : State) : State :=
  match e with
  | .reset => State.reset
  | .load bytes => (s.load bytes).1
  | .runStart => s.runStart

/-- The boot sequence, reset, load, run start (R135). A run started after a failed load is outside the specification
(R132), so the launch is refused. -/
def State.launch (bytes : List Int) : Host.Outcome State Fault Refusal :=
  match State.reset.load bytes with
  | (s, none) => .next s.runStart
  | (_, some f) => .refused (.runAfterFailedLoad f)

/-- What the diagnostic accessors return (R127). A memory byte is `none` where the collaborator's guarded read fails. -/
structure Snapshot where
  pc : Nat
  nextBytes : List (Option Byte)
  regs : List Byte
  fl : Byte
  deriving DecidableEq, Repr

/-- The byte the memory accessor returns for an address. -/
def State.accessByte (s : State) (a : Nat) : Option Byte :=
  match s.ram.read a with
  | .ok v => some v
  | .error _ => none

/-- The snapshot of R127: PC, the bytes at PC, PC+1 and PC+2, the eight registers, FL. It changes no state. -/
def State.snapshot (s : State) : Snapshot where
  pc := s.pc
  nextBytes := [s.accessByte s.pc, s.accessByte (s.pc + 1), s.accessByte (s.pc + 2)]
  regs := (List.range Config.regCount).map s.x
  fl := s.fl

/-- A decimal digit. -/
def digitChar (n : Nat) : Char := Char.ofNat (48 + n)

/-- The line the sink shows for one element of OUT (R29): the decimal numeral with no leading zeros, then a line feed. -/
def sinkLine (v : Byte) : List Char :=
  let n := v.toNat
  let hundreds := if 100 ≤ n then [digitChar (n / 100)] else []
  let tens := if 10 ≤ n then [digitChar (n / 10 % 10)] else []
  hundreds ++ tens ++ [digitChar (n % 10), '\n']

/-- The text the sink shows for OUT. -/
def sinkText (out : List Byte) : List Char := out.flatMap sinkLine

end Sys2Proof.Machine
end

