-- ==== Sys2Proof/Machine/Step.lean ====
section
/-! DEFINITION. One step of the machine (R75, R77), and how the host places one instruction for the next step. -/

namespace Sys2Proof.Machine

/-- One step: a whole cycle in status RUNNING; in HALTED and FAULTED the engine changes no state (R75). -/
def step (s : State) : Host.Outcome State Fault Refusal := runLoop s

/-- `s` with an instruction's bytes where the next step fetches: at PC, or at 0 when three bytes do not fit above PC.
Besides the bytes it sets what a cycle needs (R75): RUNNING set, no fault latched. It stands for the host's load and run
start (log entry 6). -/
def State.withFetchWord (s : State) (nbits w : Nat) : State :=
  let at_ := if s.pc + 3 ≤ Config.memSize then s.pc else Config.loadBase
  { s with
    ram := placeBytes at_ (tableBytes nbits w) s.ram
    pc := at_
    fl := flSetRunning s.fl
    fault := none }

end Sys2Proof.Machine
end

