-- ==== Sys2Proof/Safety.lean ====
section
/-! DEFINITION. The terms claims are stated in: what counts as safe (R114, R136), the invariant (R34), the reachable
states, the fault table of R113 and the register use of R16, each written from the spec and not from the meanings. -/

namespace Sys2Proof.Machine

/-- A state is safe when no fatal fault is latched: a FAULTED run has "gone wrong" and is never final (R136). -/
def State.Safe (s : State) : Prop := s.status ≠ .faulted

/-! ### The invariant of R34 -/

/-- A latched record is of an access the guard does refuse (R36, R37, R115). -/
def Fault.genuine : Fault → Bool
  | .outOfBounds m a => !m.inRange a
  | .invalidByteValue m a v => m.inRange a && (byteOfInt v).isNone

/-- The values FL can have (R21). -/
def reachableFl : List Byte := [0x00, 0x01, 0x02, 0x04, 0x80, 0x81, 0x82, 0x84]

/-- What holds in every reachable state (R34): both stores in canonical form, PC at most 259 (R24), FL one of its eight
values (R20, R21), a latched fault genuine and RUNNING still set (R114), every report of an unmapped opcode (R30). -/
abbrev State.Inv (s : State) : Prop :=
  s.ram.wf = true ∧
  s.reg.wf = true ∧
  s.pc ≤ 259 ∧
  s.fl ∈ reachableFl ∧
  (∀ f ∈ s.fault, f.genuine = true ∧ s.running = true) ∧
  (∀ r ∈ s.diag, (dispatch r.opcode).isNone = true ∧ r.address < 256)

/-- The states the machine can be in: reset, then any sequence of steps and external events (R129 to R134). -/
inductive Reachable : State → Prop where
  | reset : Reachable State.reset
  | step {s t : State} : Reachable s → Machine.step s = .next t → Reachable t
  | event {s : State} (e : Event) : Reachable s → Reachable (s.take e)

/-! ### Frames: what an instruction leaves as it was -/

/-- Every RAM byte reads as before. -/
def RamKept (s t : State) : Prop := ∀ a : Int, t.ram.read a = s.ram.read a

/-- Every register but those listed holds its value. -/
def RegsKeptBut (ds : List Nat) (s t : State) : Prop := ∀ k, k < Config.regCount → k ∉ ds → t.x k = s.x k

/-- OUT and DIAG are as before. -/
def StreamsKept (s t : State) : Prop := t.out = s.out ∧ t.diag = s.diag

/-- IR, FL and the FAULT latch are as before. -/
def ControlKept (s t : State) : Prop := t.ir = s.ir ∧ t.fl = s.fl ∧ t.fault = s.fault

/-! ### The bytes at the program counter -/

/-- The bytes of RAM from PC to its end, in address order. -/
def State.bytesFrom (s : State) : List Byte :=
  (List.range (Config.memSize - s.pc)).map (fun k => s.ram.peek (s.pc + k))

/-! ### The fault table (R113, in the order of R118) -/

/-- The first of a list of conditions that holds gives the fault. -/
def firstFault : List (Bool × Fault) → Option Fault
  | [] => none
  | (c, f) :: rest => if c then some f else firstFault rest

/-- The row "operand fetch" of the `k`-th operand byte. -/
def operandRow (s : State) (k : Nat) : Bool × Fault :=
  (decide (256 ≤ s.pc + k), .outOfBounds .ram ((s.pc + k : Nat) : Int))

/-- The row "register number of 8 or more". -/
def registerRow (r : Nat) : Bool × Fault := (decide (8 ≤ r), .outOfBounds .reg r)

/-- The byte POP loads (R93). -/
def State.top (s : State) : Byte := s.ram.peek s.sp.toNat

/-- The fault an instruction raises, by the table of R113. -/
def expectedFault (i : Instr) (s : State) : Option Fault :=
  match i with
  | .hlt => none
  | .prn r => firstFault [operandRow s 1, registerRow r]
  | .push r => firstFault [operandRow s 1, (s.sp == 0, .invalidByteValue .reg 7 (-1)), registerRow r]
  | .pop r =>
    firstFault [operandRow s 1, registerRow r,
      ((if r = 7 then s.top else s.sp) == 255, .invalidByteValue .reg 7 256)]
  | .jmp r => firstFault [operandRow s 1, registerRow r]
  | .jne r => if s.equal then none else firstFault [operandRow s 1, registerRow r]
  | .jeq r => if s.equal then firstFault [operandRow s 1, registerRow r] else none
  | .ldi r _ => firstFault [operandRow s 1, operandRow s 2, registerRow r]
  | .mul ra rb =>
    firstFault [operandRow s 1, operandRow s 2, registerRow ra, registerRow rb,
      (decide (255 < (s.x ra).toNat * (s.x rb).toNat),
        .invalidByteValue .reg ra (((s.x ra).toNat * (s.x rb).toNat : Nat) : Int))]
  | .cmp ra rb => firstFault [operandRow s 1, operandRow s 2, registerRow ra, registerRow rb]

/-! ### Register use (R16) -/

/-- The registers an instruction may write. -/
def writesRegister (i : Instr) (k : Nat) : Bool :=
  match i with
  | .push _ => k == 7
  | .pop r => k == r || k == 7
  | .ldi r _ => k == r
  | .mul ra _ => k == ra
  | .hlt | .prn _ | .jmp _ | .jne _ | .jeq _ | .cmp _ _ => false

/-- The registers an instruction may read; JNE and JEQ read theirs only when taken. -/
def readsRegister (i : Instr) (s : State) (k : Nat) : Bool :=
  match i with
  | .prn r => k == r
  | .push r => k == r || k == 7
  | .pop _ => k == 7
  | .jmp r => k == r
  | .jne r => !s.equal && k == r
  | .jeq r => s.equal && k == r
  | .mul ra rb => k == ra || k == rb
  | .cmp ra rb => k == ra || k == rb
  | .hlt | .ldi _ _ => false

/-! ### The end of a run (R136) -/

/-- The run from `s` comes to a RUNNING state `u` whose next step fetches `op` and leaves `t`. -/
def LastStep (s u t : State) (op : Byte) : Prop :=
  (∃ k, Sys2Proof.core.run k s = .next u) ∧ u.status = .running ∧ u.ram.read u.pc = .ok op ∧ step u = .next t

/-- Normal end: HALTED, reached by HLT, and the run appended nothing to DIAG. -/
def NormalEnd (s t : State) : Prop :=
  t.status = .halted ∧ t.diag = s.diag ∧ ∃ u, LastStep s u t 0x01

/-- Unknown-opcode end: HALTED, reached by an unmapped byte, and the run appended the one report of that byte and its
address. -/
def UnknownOpcodeEnd (s t : State) : Prop :=
  t.status = .halted ∧ ∃ u op, LastStep s u t op ∧ dispatch op = none ∧ t.diag = s.diag ++ [⟨op, u.pc⟩]

/-- Fault end: FAULTED, RUNNING still set. -/
def FaultEnd (s t : State) : Prop := t.status = .faulted ∧ t.running = true ∧ t.diag = s.diag

end Sys2Proof.Machine
end

