-- ==== Sys2Proof/Certificates/Slice0/Obligations.lean ====
section
/-! DEFINITION. The statements for the provers. Each is about the machine, for every state and operand that its
hypotheses allow; the docstring names the rule or the section of the spec it comes from, and says which clause rests
on a decision the spec marks as its own (D<n> of 92_eei_decisions.md) and on which log entry. -/

open Sys2Proof
open Sys2Proof.Machine

/-! ### The guarded stores -/

/-- R36: a read outside the store fails, any other returns the stored value, and no read changes state. -/
def Obligations.GuardedReadContract : Prop :=
  (∀ (m : Store) (mem : Memory m) (a : Int),
    (a < 0 ∨ (m.size : Int) ≤ a → mem.read a = .error (.outOfBounds m a)) ∧
    (0 ≤ a ∧ a < m.size → mem.read a = .ok (mem.peek a.toNat))) ∧
  (∀ (s : State) (a : Int),
    ((∃ v, (memRead a).run s = .ok v s) ∨ (∃ f, (memRead a).run s = .error f s)) ∧
    ((∃ v, (readReg a).run s = .ok v s) ∨ (∃ f, (readReg a).run s = .error f s)))

/-- R39: a write then a read, a write of a bad value, an access at a bad address, a clear then a read; a write that
succeeds changes the addressed cell only, a write that fails changes nothing. -/
def Obligations.GuardedStoreContract : Prop :=
  (∀ (m : Store) (mem : Memory m) (a v : Int), m.valid a → 0 ≤ v ∧ v ≤ 255 →
    ∃ mem', mem.write a v = .ok mem' ∧ (∃ b : Byte, mem'.read a = .ok b ∧ b.int = v) ∧
      ∀ c : Int, c ≠ a → mem'.read c = mem.read c) ∧
  (∀ (m : Store) (mem : Memory m) (a v : Int), m.valid a → (v < 0 ∨ 255 < v) →
    mem.write a v = .error (.invalidByteValue m a v)) ∧
  (∀ (m : Store) (mem : Memory m) (a v : Int), ¬ m.valid a →
    mem.read a = .error (.outOfBounds m a) ∧ mem.write a v = .error (.outOfBounds m a)) ∧
  (∀ (m : Store) (mem : Memory m) (a : Int), m.valid a → mem.clear.read a = .ok 0) ∧
  (∀ (s t : State) (a v : Int) (f : Fault), (memWrite a v).run s = .error f t → t = s) ∧
  (∀ (s t : State) (a v : Int) (f : Fault), (writeReg a v).run s = .error f t → t = s)

/-- Two stores in canonical form whose every cell reads alike are the same data: the model's form of a memory
(log entry 4). -/
def Obligations.CanonicalContentsAreEqualData : Prop :=
  ∀ (m : Store) (a b : Memory m), a.wf = true → b.wf = true →
    (∀ n : Int, m.valid n → a.read n = b.read n) → a = b

/-! ### Reset and the invariant -/

/-- The state after reset (R32; PC, FL and IR are decisions D1 to D3, the latch and the streams D12 and D29). -/
def Obligations.ResetLeavesTheStatedValues : Prop :=
  (∀ a : Int, 0 ≤ a → a < 256 → State.reset.ram.read a = .ok 0) ∧
  (∀ k, k < 7 → State.reset.x k = 0) ∧ State.reset.sp = 0xF4 ∧
  State.reset.pc = 0 ∧ State.reset.fl = 0 ∧ State.reset.ir = 0 ∧ State.reset.fault = none ∧
  State.reset.out = [] ∧ State.reset.diag = [] ∧ State.reset.status = .halted

/-- The reset state meets the invariant of R34 (its PC, FL, latch and DIAG are D1, D2, D12 and D29: log entries 1 to 3). -/
def Obligations.ResetMeetsInvariant : Prop := State.reset.Inv

/-- Every step keeps the invariant of R34 (derived in the spec; the PC bound is D4, the FAULT clause D12). -/
def Obligations.StepKeepsInvariant : Prop := ∀ s t : State, s.Inv → step s = .next t → t.Inv

/-- Every state reached by steps and by reset, load and run start in any order meets the invariant (R34; the PC bound is
D4, the FAULT clause D12, the reset values D1 and D2, what load and run start do in each status D17 and D18). -/
def Obligations.ReachableStatesMeetInvariant : Prop := ∀ s : State, Reachable s → s.Inv

/-! ### The cycle -/

/-- A step in status RUNNING whose bytes at PC decode to `i` is `exec i` with IR holding the opcode (R77, R78). What a
step adds around `exec` is only the write of IR; `exec` holds steps 3 and 4. The second clause is for every mapped byte
inside RAM, also one at 254 or 255 whose operand bytes would lie past the end; `peek` shows 0 for those (log entry 5),
and `StepWithOperandsPastRam` says what such a step does. -/
def Obligations.StepRunsDecodedInstruction : Prop :=
  (∀ (s : State) (i : Instr) (rest : List Byte), s.status = .running → decode s.bytesFrom = .ok (i, rest) →
    i.wf = true ∧ step s = exec i (s.setIr i.opcode)) ∧
  (∀ (s : State) (i : Instr), s.status = .running → s.pc < 256 →
    assemble (s.ram.peek s.pc) (s.ram.peek (s.pc + 1)) (s.ram.peek (s.pc + 2)) = some i →
    i.wf = true ∧ i.opcode = s.ram.peek s.pc ∧ step s = exec i (s.setIr i.opcode))

/-- R86, R98, R99: a step whose mapped opcode lies at 254 or 255 with an operand byte past the end of RAM. A JNE or JEQ
that is not taken reads no operand and goes on to 257 (D11; PC does not wrap, D4). Every other one faults with
`OutOfBounds(RAM, 256)`, IR written by the fetch and nothing else changed: of the errors that could stand together the
operand byte at 256 is the first (R118, D8, log entry 9), and FAULTED is D12 (log entry 2). -/
def Obligations.StepWithOperandsPastRam : Prop :=
  ∀ (s : State) (op : Byte), s.status = .running → s.ram.read s.pc = .ok op → (dispatch op).isSome = true →
    256 ≤ s.pc + operandCount op →
    ((op = 0x55 ∧ s.fl.getLsbD 0 = true) ∨ (op = 0x56 ∧ s.fl.getLsbD 0 = false) →
      step s = .next ((s.setIr op).setPc 257)) ∧
    (¬ ((op = 0x55 ∧ s.fl.getLsbD 0 = true) ∨ (op = 0x56 ∧ s.fl.getLsbD 0 = false)) →
      step s = .next ((s.setIr op).setFault (some (.outOfBounds .ram 256))))

/-- R83: an unmapped byte is reported with the PC it came from, RUNNING is cleared, PC advances by the byte's own
fields, with no wrap, and nothing else but IR changes (D4, D6, D7, D16). -/
def Obligations.UnmappedOpcodeReportsAndHalts : Prop :=
  ∀ (s : State) (op : Byte), s.status = .running → s.ram.read s.pc = .ok op → dispatch op = none →
    ∃ t, step s = .next t ∧ t.diag = s.diag ++ [⟨op, s.pc⟩] ∧ t.status = .halted ∧
      t.fl.getLsbD 7 = false ∧ (∀ b, b ≠ 7 → t.fl.getLsbD b = s.fl.getLsbD b) ∧
      t.pc = (if op.getLsbD 4 then s.pc else s.pc + 1 + op.toNat / 64) ∧
      t.ir = op ∧ t.out = s.out ∧ t.fault = none ∧ RamKept s t ∧ RegsKeptBut [] s t

/-- R78: a fetch with PC at 256 or above latches `OutOfBounds(RAM, pc)` and changes nothing else, IR included
(D4, D12). -/
def Obligations.FetchPastEndFaults : Prop :=
  ∀ s : State, s.status = .running → 256 ≤ s.pc →
    step s = .next (s.setFault (some (.outOfBounds .ram s.pc)))

/-- R75: a step performs a cycle exactly when RUNNING is set and no fault is latched; otherwise it changes no state (the
FAULT latch is D12; that a step which performs no cycle answers the same state is the model's reading, log entry 16). -/
def Obligations.CycleOnlyWhileRunning : Prop :=
  ∀ s : State,
    (s.fl.getLsbD 7 = true ∧ s.fault = none → step s = cycle s) ∧
    (¬ (s.fl.getLsbD 7 = true ∧ s.fault = none) → step s = .next s)

/-- Every state has exactly one next state; no step ends in a fault or a refusal. R88 says so for status RUNNING. That a
HALTED or FAULTED state also has a next state, itself, is the model's reading of R75 (DEDUCED, log entry 16), and that a
fatal error is a next state and no fault outcome is the spec's decision D12 (log entry 2). -/
def Obligations.EveryStepHasANextState : Prop := ∀ s : State, ∃ t, step s = .next t

/-- R10: a raise ends the instruction where it stands; later lines and step 4 are not performed, what was written
stays, and no further cycle changes anything (the latch is D12; that steps in FAULTED answer the same state is log entry
16). -/
def Obligations.RaiseEndsTheInstruction : Prop :=
  (∀ (op : Byte) (h k : Handler Unit) (s t : State) (f : Fault), h.run s = .error f t →
    runHandler op (do h; k) s = .next (t.takeFault f) ∧
    (t.takeFault f).pc = t.pc ∧ (t.takeFault f).ram = t.ram ∧ (t.takeFault f).reg = t.reg ∧
    ∀ n, Sys2Proof.core.run n (t.takeFault f) = .next (t.takeFault f)) ∧
  (∀ (s t : State) (a : Int) (f : Fault), (memRead a).run s = .error f t → t = s) ∧
  (∀ (s t : State) (a : Int) (f : Fault), (readReg a).run s = .error f t → t = s) ∧
  (∀ (s t : State) (a v : Int) (f : Fault), (memWrite a v).run s = .error f t → t = s) ∧
  (∀ (s t : State) (a v : Int) (f : Fault), (writeReg a v).run s = .error f t → t = s)

/-- R81, R82, R113: an operand byte that would lie past the end of RAM is used by no instruction, so what `decodeAt`
shows for it does not matter (log entry 5). -/
def Obligations.OperandsPastRamAreNeverUsed : Prop :=
  ∀ (s : State) (op b1 b2 c1 c2 : Byte) (i j : Instr), assemble op b1 b2 = some i → assemble op c1 c2 = some j →
    (s.pc + 1 < 256 → b1 = c1) → (s.pc + 2 < 256 → b2 = c2) → exec i s = exec j s

/-! ### System instructions -/

/-- R89: HLT clears RUNNING and no other flag; step 4 still advances PC by one (D5), to 256 from 255 (D4). -/
def Obligations.HltClearsRunning : Prop :=
  ∀ s : State, ∃ t, exec .hlt s = .next t ∧ t.fl.getLsbD 7 = false ∧
    (∀ b, b ≠ 7 → t.fl.getLsbD b = s.fl.getLsbD b) ∧ t.pc = s.pc + 1 ∧
    t.ir = s.ir ∧ t.fault = s.fault ∧ StreamsKept s t ∧ RamKept s t ∧ RegsKeptBut [] s t

/-- R90: PRN appends the register's value to OUT and changes nothing else but PC (OUT as a sequence of bytes is D15, log
entry 3). -/
def Obligations.PrnAppendsRegisterValue : Prop :=
  ∀ (s : State) (r : Nat), s.pc + 1 < 256 → r < 8 →
    ∃ t, exec (.prn r) s = .next t ∧ t.out = s.out ++ [s.x r] ∧ t.pc = s.pc + 2 ∧
      t.diag = s.diag ∧ ControlKept s t ∧ RamKept s t ∧ RegsKeptBut [] s t

/-! ### The stack -/

/-- R92: PUSH lowers SP by one and stores at the new SP the register's value read after the decrement (D9), and changes
no other byte and no other register. -/
def Obligations.PushStoresAtDecrementedSp : Prop :=
  ∀ (s : State) (r : Nat), s.pc + 1 < 256 → s.sp ≠ 0 → r < 8 →
    ∃ t, exec (.push r) s = .next t ∧ t.sp.int = s.sp.int - 1 ∧
      t.ram.read (s.sp.int - 1) = .ok (if r = 7 then t.sp else s.x r) ∧
      (∀ a : Int, a ≠ s.sp.int - 1 → t.ram.read a = s.ram.read a) ∧
      t.pc = s.pc + 2 ∧ ControlKept s t ∧ StreamsKept s t ∧ RegsKeptBut [7] s t

/-- R93: POP into a register other than SP loads the byte at SP and raises SP by one. -/
def Obligations.PopLoadsTopAndRaisesSp : Prop :=
  ∀ (s : State) (r : Nat), s.pc + 1 < 256 → r < 8 → r ≠ 7 → s.sp ≠ 255 →
    ∃ t, exec (.pop r) s = .next t ∧ s.ram.read s.sp.int = .ok (t.x r) ∧ t.sp.int = s.sp.int + 1 ∧
      t.pc = s.pc + 2 ∧ ControlKept s t ∧ StreamsKept s t ∧ RamKept s t ∧ RegsKeptBut [r, 7] s t

/-- R93 corner case (a): POP R7 ends with SP one above the popped byte (D9). -/
def Obligations.PopOfSpEndsOneAboveTheByte : Prop :=
  ∀ (s : State) (v : Byte), s.pc + 1 < 256 → s.ram.read s.sp.int = .ok v → v ≠ 255 →
    ∃ t, exec (.pop 7) s = .next t ∧ t.sp.int = v.int + 1 ∧
      t.pc = s.pc + 2 ∧ ControlKept s t ∧ StreamsKept s t ∧ RamKept s t ∧ RegsKeptBut [7] s t

/-- R93 corner case (d), R95: a PUSH then a POP copies the first register to the second and restores SP. -/
def Obligations.PushThenPopCopiesAndRestoresSp : Prop :=
  ∀ (s : State) (r q : Nat), s.pc + 3 < 256 → s.sp ≠ 0 → r < 7 → q < 7 →
    ∃ t u, exec (.push r) s = .next t ∧ exec (.pop q) t = .next u ∧
      u.x q = s.x r ∧ u.sp = s.sp ∧ u.pc = s.pc + 4 ∧ RegsKeptBut [q] s u

/-! ### Control transfer -/

/-- R97: JMP makes PC the register's value and changes nothing else. -/
def Obligations.JmpSetsPcToRegister : Prop :=
  ∀ (s : State) (r : Nat), s.pc + 1 < 256 → r < 8 →
    ∃ t, exec (.jmp r) s = .next t ∧ t.pc = (s.x r).toNat ∧
      ControlKept s t ∧ StreamsKept s t ∧ RamKept s t ∧ RegsKeptBut [] s t

/-- R98: JNE behaves as JMP when EQUAL is clear; when it is set it steps over its two bytes, whatever its operand byte
and wherever it lies (D11), to 257 from 255 (D4). -/
def Obligations.JneJumpsWhenEqualClear : Prop :=
  (∀ (s : State) (r : Nat), s.fl.getLsbD 0 = false → s.pc + 1 < 256 → r < 8 →
    ∃ t, exec (.jne r) s = .next t ∧ t.pc = (s.x r).toNat ∧
      ControlKept s t ∧ StreamsKept s t ∧ RamKept s t ∧ RegsKeptBut [] s t) ∧
  (∀ (s : State) (r : Nat), s.fl.getLsbD 0 = true →
    ∃ t, exec (.jne r) s = .next t ∧ t.pc = s.pc + 2 ∧
      ControlKept s t ∧ StreamsKept s t ∧ RamKept s t ∧ RegsKeptBut [] s t)

/-- R99: JEQ is JNE with the sense of EQUAL inverted (D11, D4). -/
def Obligations.JeqJumpsWhenEqualSet : Prop :=
  (∀ (s : State) (r : Nat), s.fl.getLsbD 0 = true → s.pc + 1 < 256 → r < 8 →
    ∃ t, exec (.jeq r) s = .next t ∧ t.pc = (s.x r).toNat ∧
      ControlKept s t ∧ StreamsKept s t ∧ RamKept s t ∧ RegsKeptBut [] s t) ∧
  (∀ (s : State) (r : Nat), s.fl.getLsbD 0 = false →
    ∃ t, exec (.jeq r) s = .next t ∧ t.pc = s.pc + 2 ∧
      ControlKept s t ∧ StreamsKept s t ∧ RamKept s t ∧ RegsKeptBut [] s t)

/-- R97 corner case (b), R87: a jump to its own address loops for ever, and nothing but IR ever changes. -/
def Obligations.JumpToItselfNeverEnds : Prop :=
  ∀ (s : State) (r : Byte), s.status = .running → s.ram.read s.pc = .ok 0x54 →
    s.ram.read ((s.pc + 1 : Nat) : Int) = .ok r → r.toNat < 8 → (s.x r.toNat).toNat = s.pc →
    ∀ n, Sys2Proof.core.run (n + 1) s = .next (s.setIr 0x54)

/-! ### Load immediate and the ALU -/

/-- R102: LDI makes the register the immediate byte and changes no other register, no flag and no byte (the byte as it
is: D26, log entry 13). -/
def Obligations.LdiLoadsImmediate : Prop :=
  ∀ (s : State) (r : Nat) (imm : Byte), s.pc + 2 < 256 → r < 8 →
    ∃ t, exec (.ldi r imm) s = .next t ∧ t.x r = imm ∧ t.pc = s.pc + 3 ∧
      ControlKept s t ∧ StreamsKept s t ∧ RamKept s t ∧ RegsKeptBut [r] s t

/-- R106: MUL makes the first register the exact product when it fits a byte, and leaves FL alone. -/
def Obligations.MulStoresExactProduct : Prop :=
  ∀ (s : State) (ra rb : Nat), s.pc + 2 < 256 → ra < 8 → rb < 8 → (s.x ra).toNat * (s.x rb).toNat ≤ 255 →
    ∃ t, exec (.mul ra rb) s = .next t ∧ (t.x ra).toNat = (s.x ra).toNat * (s.x rb).toNat ∧ t.pc = s.pc + 3 ∧
      ControlKept s t ∧ StreamsKept s t ∧ RamKept s t ∧ RegsKeptBut [ra] s t

/-- R105, R106: a product above 255 raises `InvalidByteValue(REG, a, product)`, the register keeps its value and the
machine is FAULTED with nothing else changed; never a wrap, never a saturation (FAULTED is D12). -/
def Obligations.MulOverflowFaults : Prop :=
  ∀ (s : State) (ra rb : Nat), s.fault = none → s.pc + 2 < 256 → ra < 8 → rb < 8 →
    255 < (s.x ra).toNat * (s.x rb).toNat →
    exec (.mul ra rb) s =
      .next (s.setFault (some (.invalidByteValue .reg ra (((s.x ra).toNat * (s.x rb).toNat : Nat) : Int))))

/-- R107, R108: CMP writes all three comparison flags from the unsigned order, so exactly one is set (R21), and leaves
RUNNING and bits 6 to 3 (D20 for the unsigned order). -/
def Obligations.CmpSetsExactlyOneFlag : Prop :=
  ∀ (s : State) (ra rb : Nat), s.pc + 2 < 256 → ra < 8 → rb < 8 →
    ∃ t, exec (.cmp ra rb) s = .next t ∧
      t.fl.getLsbD 0 = decide (s.x ra = s.x rb) ∧
      t.fl.getLsbD 2 = decide ((s.x ra).toNat < (s.x rb).toNat) ∧
      t.fl.getLsbD 1 = decide ((s.x rb).toNat < (s.x ra).toNat) ∧
      (∀ b, 3 ≤ b → t.fl.getLsbD b = s.fl.getLsbD b) ∧
      t.pc = s.pc + 3 ∧ t.ir = s.ir ∧ t.fault = s.fault ∧ StreamsKept s t ∧ RamKept s t ∧ RegsKeptBut [] s t

/-! ### Fatal faults -/

/-- R114, R115: taking a fatal fault latches its record and changes nothing else; the latch keeps the first (D12). -/
def Obligations.TakingAFaultOnlyLatches : Prop :=
  ∀ (s : State) (f : Fault),
    (s.fault = none → s.takeFault f = s.setFault (some f) ∧ (s.takeFault f).status = .faulted) ∧
    (∀ g, s.fault = some g → s.takeFault f = s) ∧ (s.takeFault f).fl = s.fl ∧ (s.takeFault f).pc = s.pc

/-- R114, R129, R131, R133: in status FAULTED no step, load or run start changes anything; reset does (D12, D17;
steps: log entry 16). -/
def Obligations.FaultedIsTerminalUntilReset : Prop :=
  ∀ s : State, s.status = .faulted →
    (∀ n, Sys2Proof.core.run n s = .next s) ∧ (∀ bytes, s.load bytes = (s, none)) ∧ s.runStart = s ∧
    s.take .reset = State.reset ∧ (s.take .reset).status = .halted

/-- R113, R118: from a state with no fault latched, every instruction ends with the fault of the table, or with none. The
spec's own decisions in it: the order of checks D8 (log entry 9), a branch that is not taken raises nothing D11 (log
entry 10), the kind `InvalidByteValue` on register 7 when PUSH or POP takes SP out of range D10 (log entry 12, conflict
C1), register numbers with no mask D25 (log entry 13), the latch and its record D12 and D13 (log entry 2). -/
def Obligations.FaultsAreThoseOfTheTable : Prop :=
  ∀ (i : Instr) (s : State), s.fault = none → ∃ t, exec i s = .next t ∧ t.fault = expectedFault i s

/-- R114, R116, R117: an instruction that faults leaves PC at its own address and FL, RAM, OUT and DIAG as they were; only
a PUSH of a bad register number and a POP whose increment overflows leave a register written. That the fault is a record
latched in a next state, with FL kept, is the spec's decision D12 (log entry 2); which register is left written is its
order of sub-steps, D8 (log entry 9), and that a number of 8 or more is bad, unmasked, is D25 (log entry 13). -/
def Obligations.FaultLeavesPcAndAtMostOneRegister : Prop :=
  ∀ (i : Instr) (s t : State), s.fault = none → exec i s = .next t → t.fault ≠ none →
    t.pc = s.pc ∧ t.ir = s.ir ∧ t.fl = s.fl ∧ StreamsKept s t ∧ t.ram = s.ram ∧
    (t.reg = s.reg ∨
      (∃ r, i = .push r ∧ 8 ≤ r ∧ t.sp.int = s.sp.int - 1 ∧ RegsKeptBut [7] s t) ∨
      (∃ r, i = .pop r ∧ r < 8 ∧ t.x r = s.top ∧ t.sp = 255 ∧ RegsKeptBut [r, 7] s t))

/-- R86, R113: an instruction whose operand byte would lie at 256 faults there with nothing changed (FAULTED is D12, log
entry 2). Where another error could stand beside it (a PUSH with SP 0, a bad register number, a second operand byte at
257) the byte at 256 is the one reported: R118 and D8 (log entry 9). A branch that is not taken reads no operand and is
not among these (D11, log entry 10). -/
def Obligations.TruncatedInstructionFaults : Prop :=
  ∀ s : State, s.fault = none →
    (s.pc = 255 → ∀ (r q : Nat) (imm : Byte),
      exec (.push r) s = .next (s.setFault (some (.outOfBounds .ram 256))) ∧
      exec (.pop r) s = .next (s.setFault (some (.outOfBounds .ram 256))) ∧
      exec (.prn r) s = .next (s.setFault (some (.outOfBounds .ram 256))) ∧
      exec (.jmp r) s = .next (s.setFault (some (.outOfBounds .ram 256))) ∧
      (s.fl.getLsbD 0 = false → exec (.jne r) s = .next (s.setFault (some (.outOfBounds .ram 256)))) ∧
      (s.fl.getLsbD 0 = true → exec (.jeq r) s = .next (s.setFault (some (.outOfBounds .ram 256)))) ∧
      exec (.ldi r imm) s = .next (s.setFault (some (.outOfBounds .ram 256))) ∧
      exec (.mul r q) s = .next (s.setFault (some (.outOfBounds .ram 256))) ∧
      exec (.cmp r q) s = .next (s.setFault (some (.outOfBounds .ram 256)))) ∧
    (s.pc = 254 → ∀ (r q : Nat) (imm : Byte),
      exec (.ldi r imm) s = .next (s.setFault (some (.outOfBounds .ram 256))) ∧
      exec (.mul r q) s = .next (s.setFault (some (.outOfBounds .ram 256))) ∧
      exec (.cmp r q) s = .next (s.setFault (some (.outOfBounds .ram 256))))

/-- R63, R113: a register number of 8 or more, never masked to three bits, faults when the register is accessed, with
nothing changed (D25, log entry 13; FAULTED is D12; of two bad numbers the first is reported, D8, log entry 9). PUSH,
which has already lowered SP, is `PushFaults`. -/
def Obligations.BadRegisterNumberFaults : Prop :=
  ∀ (s : State) (r q : Nat) (imm : Byte), s.fault = none → s.pc + 2 < 256 → 8 ≤ r →
    exec (.prn r) s = .next (s.setFault (some (.outOfBounds .reg r))) ∧
    exec (.pop r) s = .next (s.setFault (some (.outOfBounds .reg r))) ∧
    exec (.jmp r) s = .next (s.setFault (some (.outOfBounds .reg r))) ∧
    (s.fl.getLsbD 0 = false → exec (.jne r) s = .next (s.setFault (some (.outOfBounds .reg r)))) ∧
    (s.fl.getLsbD 0 = true → exec (.jeq r) s = .next (s.setFault (some (.outOfBounds .reg r)))) ∧
    exec (.ldi r imm) s = .next (s.setFault (some (.outOfBounds .reg r))) ∧
    exec (.mul r q) s = .next (s.setFault (some (.outOfBounds .reg r))) ∧
    exec (.cmp r q) s = .next (s.setFault (some (.outOfBounds .reg r))) ∧
    (q < 8 → exec (.mul q r) s = .next (s.setFault (some (.outOfBounds .reg r)))) ∧
    (q < 8 → exec (.cmp q r) s = .next (s.setFault (some (.outOfBounds .reg r))))

/-- R92, R94: PUSH with SP = 0 raises `InvalidByteValue(REG, 7, -1)` and changes nothing else; PUSH of a register number
of 8 or more raises `OutOfBounds` with SP already lowered and nothing stored. Decisions of the spec: FAULTED, a next state
with the latch set and FL kept, D12 (R114, log entry 2); the order D8 (log entry 9); the kind at SP = 0 D10 (log entry 12,
conflict C1); no mask on the number D25 (log entry 13). -/
def Obligations.PushFaults : Prop :=
  ∀ (s : State) (r : Nat), s.fault = none → s.pc + 1 < 256 →
    (s.sp = 0 → exec (.push r) s = .next (s.setFault (some (.invalidByteValue .reg 7 (-1))))) ∧
    (s.sp ≠ 0 → 8 ≤ r → ∃ t, exec (.push r) s = .next t ∧ t.fault = some (.outOfBounds .reg r) ∧
      t.sp.int = s.sp.int - 1 ∧ RegsKeptBut [7] s t ∧ RamKept s t ∧ t.pc = s.pc ∧ t.fl = s.fl ∧ t.ir = s.ir ∧
      StreamsKept s t)

/-- R93, R94: a POP whose increment would take SP to 256 raises `InvalidByteValue(REG, 7, 256)` with the destination
already loaded; SP does not wrap. Decisions of the spec: FAULTED, a next state with the latch set and FL kept, D12 (R114,
log entry 2); the order D8, and for POP R7 the increment of the popped byte D9 (log entry 9); the kind D10 (log entry 12,
conflict C1). -/
def Obligations.PopIncrementFaults : Prop :=
  ∀ (s : State) (r : Nat), s.fault = none → s.pc + 1 < 256 → r < 8 → (if r = 7 then s.top else s.sp) = 255 →
    ∃ t, exec (.pop r) s = .next t ∧ t.fault = some (.invalidByteValue .reg 7 256) ∧
      t.x r = s.top ∧ t.sp = 255 ∧ RegsKeptBut [r, 7] s t ∧ RamKept s t ∧ t.pc = s.pc ∧ t.fl = s.fl ∧ t.ir = s.ir ∧
      StreamsKept s t

/-! ### Whole-machine rules -/

/-- R19: what writes FL and what reads it. CMP writes bits 2 to 0, HLT and the unknown-opcode fallback clear bit 7, run
start sets bit 7, reset writes all of it; no other instruction, step or event writes it; of its bits an instruction sees
only EQUAL. -/
def Obligations.FlagWritersAndReaders : Prop :=
  (∀ (i : Instr) (s t : State), exec i s = .next t →
    match i with
    | .cmp _ _ => ∀ b, 3 ≤ b → t.fl.getLsbD b = s.fl.getLsbD b
    | .hlt => t.fl.getLsbD 7 = false ∧ ∀ b, b ≠ 7 → t.fl.getLsbD b = s.fl.getLsbD b
    | .push _ | .pop _ | .prn _ | .jmp _ | .jne _ | .jeq _ | .ldi _ _ | .mul _ _ => t.fl = s.fl) ∧
  (∀ (op : Byte) (s t : State), unknownOpcode op s = .next t →
    t.fl.getLsbD 7 = false ∧ ∀ b, b ≠ 7 → t.fl.getLsbD b = s.fl.getLsbD b) ∧
  (∀ s : State, s.status = .halted →
    s.runStart.fl.getLsbD 7 = true ∧ ∀ b, b ≠ 7 → s.runStart.fl.getLsbD b = s.fl.getLsbD b) ∧
  (∀ (s : State) (e : Event), (s.take e).fl ≠ s.fl → e = .reset ∨ (e = .runStart ∧ s.status = .halted)) ∧
  (∀ s t : State, step s = .next t → t.fl ≠ s.fl →
    ∃ op, s.ram.read s.pc = .ok op ∧ (op = 0xA7 ∨ op = 0x01 ∨ dispatch op = none)) ∧
  (∀ (i : Instr) (s t : State) (f : Byte), f.getLsbD 0 = s.fl.getLsbD 0 → exec i s = .next t →
    ∃ g, exec i (s.setFl f) = .next (t.setFl g))

/-- R16: an instruction writes no register but those R16 lists for it, and its outcome does not depend on a register it
does not read (a branch that is not taken reads none, D11; a number of 8 or more names no register, D25). It speaks of
instructions that fault too: a fault is a record latched in a next state, D12 (log entry 2). -/
def Obligations.RegisterReadsAndWrites : Prop :=
  (∀ (i : Instr) (s t : State) (k : Nat), exec i s = .next t → k < 8 → writesRegister i k = false → t.x k = s.x k) ∧
  (∀ (i : Instr) (s : State) (k : Nat) (v : Byte), k < 8 → readsRegister i s k = false →
    ∃ t u, exec i s = .next t ∧ exec i (s.setX k v) = .next u ∧
      u.ram = t.ram ∧ u.pc = t.pc ∧ ControlKept t u ∧ StreamsKept t u ∧ RegsKeptBut [k] t u)

/-- R42: a step changes a RAM byte only by a PUSH, and only the byte one below SP. Steps that fault (D12, log entry 2) and
steps in HALTED or FAULTED (log entry 16) are next states too, and are covered. -/
def Obligations.OnlyPushWritesRam : Prop :=
  ∀ (s t : State) (a : Int), step s = .next t → t.ram.read a ≠ s.ram.read a →
    s.status = .running ∧ s.ram.read s.pc = .ok 0x45 ∧ a = s.sp.int - 1

/-- R29, R90: a step changes OUT only by a PRN, which appends one byte, the value of the register that the byte at PC+1
names (D15, log entry 3). Steps that fault (D12) and steps in HALTED or FAULTED (log entry 16) are covered. -/
def Obligations.OnlyPrnWritesOut : Prop :=
  ∀ s t : State, step s = .next t → t.out ≠ s.out →
    s.status = .running ∧ s.ram.read s.pc = .ok 0x47 ∧
    ∃ r : Byte, s.ram.read ((s.pc + 1 : Nat) : Int) = .ok r ∧ r.toNat < 8 ∧ t.out = s.out ++ [s.x r.toNat]

/-- R29, R30: the core never reads OUT or DIAG; a step from a state with other streams appends the same things (the two
streams are D15 and D16, log entry 3; steps that fault are D12, steps in HALTED or FAULTED log entry 16). -/
def Obligations.StreamsAreNeverRead : Prop :=
  ∀ (s t : State) (o : List Byte) (d : List Report), step s = .next t →
    ∃ o' d', t.out = s.out ++ o' ∧ t.diag = s.diag ++ d' ∧
      step { s with out := o, diag := d } = .next { t with out := o ++ o', diag := d ++ d' }

/-- R25: IR is written by the fetch before anything reads it, so its value between cycles makes no difference. -/
def Obligations.IrBetweenCyclesIsNeverRead : Prop :=
  ∀ (s : State) (b : Byte), s.status = .running → s.pc < 256 → step (s.setIr b) = step s

/-- R54, R140: a byte PUSH stores where the next instruction is fetched is the opcode of that very next cycle (which may
end in a fault, still a next state with IR written: D12). -/
def Obligations.StoreIsSeenByTheNextFetch : Prop :=
  ∀ (s : State) (r : Byte), s.status = .running → s.ram.read s.pc = .ok 0x45 →
    s.ram.read ((s.pc + 1 : Nat) : Int) = .ok r → r.toNat < 7 → s.sp.toNat = s.pc + 3 →
    ∃ t u, step s = .next t ∧ step t = .next u ∧ u.ir = s.x r.toNat

/-- R136, R30: however many steps a run takes, it is RUNNING still with nothing reported, or has ended in exactly one of
the three ways: by a step that fetched HLT, nothing reported; by a step that fetched an unmapped byte, with that one
report; or by a fault (D12, D28; the report's place is D16). That the steps after the end change nothing is log entry 16. -/
def Obligations.RunEndsInOneOfThreeWays : Prop :=
  ∀ (n : Nat) (s : State), s.status = .running →
    ∃ t : State, Sys2Proof.core.run n s = .next t ∧
      ((t.status = .running ∧ t.diag = s.diag) ∨ NormalEnd s t ∨ UnknownOpcodeEnd s t ∨ FaultEnd s t)

/-- R29, R30: over any number of steps OUT and DIAG only grow at their end (the streams are D15 and D16; a step that
faults is a next state, D12; steps past the end of a run change nothing, log entry 16). -/
def Obligations.StreamsOnlyGrow : Prop :=
  ∀ (n : Nat) (s t : State), Sys2Proof.core.run n s = .next t → s.out <+: t.out ∧ s.diag <+: t.diag

/-! ### Encoding -/

/-- Decoding the encoding of a well-formed instruction gives it back, with the bytes that follow it (R57, R60, R65). -/
def Obligations.DecodeOfEncodeIsTheInstruction : Prop :=
  ∀ (i : Instr) (rest : List Byte), i.wf = true → decode (encode i ++ rest) = .ok (i, rest)

/-- The other direction: bytes that decode are the encoding of the instruction they decode to, which is well formed
(R63, R69: all eight bits of each operand byte are significant). -/
def Obligations.EncodeOfDecodeIsTheBytes : Prop :=
  ∀ (bs rest : List Byte) (i : Instr), decode bs = .ok (i, rest) → i.wf = true ∧ encode i ++ rest = bs

/-- R58: the four fields of an opcode byte. -/
def Obligations.DecoderFieldsOfTheOpcodeByte : Prop :=
  ∀ op : Byte, operandCount op = op.toNat / 64 ∧ isAluOp op = op.getLsbD 5 ∧ setsPc op = op.getLsbD 4 ∧
    instructionId op = op.toNat % 16

/-- R65, R66, R67: a byte is mapped exactly when it is one of the ten opcodes, each to its own instruction
(JNE 0x55 and JEQ 0x56 as R65's table has them; log entry 11 says what published LS-8 lists have). -/
def Obligations.TenOpcodesAreMapped : Prop :=
  (∀ op : Byte, (dispatch op).isSome = true ↔
    op ∈ ([0x01, 0x45, 0x46, 0x47, 0x54, 0x55, 0x56, 0x82, 0xA2, 0xA7] : List Byte)) ∧
  (∀ b1 b2 : Byte,
    assemble 0x01 b1 b2 = some .hlt ∧ assemble 0x45 b1 b2 = some (.push b1.toNat) ∧
    assemble 0x46 b1 b2 = some (.pop b1.toNat) ∧ assemble 0x47 b1 b2 = some (.prn b1.toNat) ∧
    assemble 0x54 b1 b2 = some (.jmp b1.toNat) ∧ assemble 0x55 b1 b2 = some (.jne b1.toNat) ∧
    assemble 0x56 b1 b2 = some (.jeq b1.toNat) ∧ assemble 0x82 b1 b2 = some (.ldi b1.toNat b2) ∧
    assemble 0xA2 b1 b2 = some (.mul b1.toNat b2.toNat) ∧ assemble 0xA7 b1 b2 = some (.cmp b1.toNat b2.toNat))

/-- R57: an instruction is its opcode byte and then its operand bytes at the next higher addresses, as many as bits 7 and
6 of the opcode say, so 1 to 3 bytes; each operand byte is one whole operand. -/
def Obligations.InstructionLayout : Prop :=
  (∀ i : Instr, ∃ ops : List Byte, encode i = i.opcode :: ops ∧ ops.length = i.opcode.toNat / 64 ∧
    ops.length ≤ 2) ∧
  (∀ i : Instr, i.wf = true →
    match i with
    | .hlt => encode i = [0x01]
    | .push r => ∃ b : Byte, b.toNat = r ∧ encode i = [0x45, b]
    | .pop r => ∃ b : Byte, b.toNat = r ∧ encode i = [0x46, b]
    | .prn r => ∃ b : Byte, b.toNat = r ∧ encode i = [0x47, b]
    | .jmp r => ∃ b : Byte, b.toNat = r ∧ encode i = [0x54, b]
    | .jne r => ∃ b : Byte, b.toNat = r ∧ encode i = [0x55, b]
    | .jeq r => ∃ b : Byte, b.toNat = r ∧ encode i = [0x56, b]
    | .ldi r imm => ∃ b : Byte, b.toNat = r ∧ encode i = [0x82, b, imm]
    | .mul ra rb => ∃ a b : Byte, a.toNat = ra ∧ b.toNat = rb ∧ encode i = [0xA2, a, b]
    | .cmp ra rb => ∃ a b : Byte, a.toNat = ra ∧ b.toNat = rb ∧ encode i = [0xA7, a, b]) ∧
  (∀ (s : State) (i : Instr) (rest : List Byte), decode s.bytesFrom = .ok (i, rest) →
    ∀ (k : Nat) (b : Byte), (encode i)[k]? = some b → s.ram.read ((s.pc + k : Nat) : Int) = .ok b)

/-- Words written out from the encodings of spec/opcode_table.json decode to their instructions (R60, R65). -/
def Obligations.SampleWordsDecode : Prop :=
  decodeTableWord 8 0b00000001 = some .hlt ∧
  decodeTableWord 16 0b0000001101010100 = some (.jmp 3) ∧
  decodeTableWord 16 0b0000011101000101 = some (.push 7) ∧
  decodeTableWord 24 0b000010000000000010000010 = some (.ldi 0 8) ∧
  decodeTableWord 24 0b000000010000000010100010 = some (.mul 0 1) ∧
  decodeTableWord 8 0b00000000 = none

/-! ### External events -/

/-- R131: a load in status HALTED leaves the bytes at the addresses from 0 and 0 everywhere else, and touches nothing
but RAM (D18). -/
def Obligations.LoadFillsRamFromZero : Prop :=
  ∀ (s : State) (bytes : List Int), s.status = .halted → bytes.length ≤ 256 → (∀ b ∈ bytes, 0 ≤ b ∧ b ≤ 255) →
    ∃ t, s.load bytes = (t, none) ∧
      (∀ (n : Nat) (b : Int), bytes[n]? = some b → ∃ v : Byte, t.ram.read n = .ok v ∧ v.int = b) ∧
      (∀ n : Nat, bytes.length ≤ n → n < 256 → t.ram.read n = .ok 0) ∧
      t.pc = s.pc ∧ ControlKept s t ∧ StreamsKept s t ∧ RegsKeptBut [] s t

/-- R132: a load of more than 256 bytes or of a value outside 0 to 255 fails at that index with the loader's error; the
bytes before it stay, the rest is abandoned, and nothing is latched (D19). A bad value at index 256 fails both ways; that
`OutOfBounds` is the error is the spec's decision D27, the address check first (log entry 14). -/
def Obligations.LoadErrorsAreTheLoaders : Prop :=
  ∀ (s : State) (good rest : List Int) (v : Int), s.status = .halted → good.length ≤ 256 →
    (∀ b ∈ good, 0 ≤ b ∧ b ≤ 255) → (good.length = 256 ∨ v < 0 ∨ 255 < v) →
    ∃ t, s.load (good ++ v :: rest) =
        (t, some (if good.length = 256 then .outOfBounds .ram 256 else .invalidByteValue .ram good.length v)) ∧
      (∀ (n : Nat) (b : Int), good[n]? = some b → ∃ w : Byte, t.ram.read n = .ok w ∧ w.int = b) ∧
      (∀ n : Nat, good.length ≤ n → n < 256 → t.ram.read n = .ok 0) ∧
      t.status = .halted ∧ t.pc = s.pc ∧ ControlKept s t ∧ StreamsKept s t ∧ RegsKeptBut [] s t

/-- R133: run start sets RUNNING in status HALTED and does nothing in any other status; in every status it leaves
everything but FL (D17). -/
def Obligations.RunStartSetsRunningOnly : Prop :=
  ∀ s : State,
    (s.status = .halted → s.runStart.status = .running ∧ (∀ b, b ≠ 7 → s.runStart.fl.getLsbD b = s.fl.getLsbD b)) ∧
    (s.status ≠ .halted → s.runStart = s) ∧
    s.runStart.pc = s.pc ∧ s.runStart.ir = s.ir ∧ s.runStart.fault = s.fault ∧ StreamsKept s s.runStart ∧
    s.runStart.ram = s.ram ∧ s.runStart.reg = s.reg

/-- R135: reset, load, run start leaves a RUNNING machine whose next fetch is the first byte of the program; a launch
whose load failed is refused with the very error the load gave (R132, D19, log entry 15). PC 0 and the comparison flags of FL 0x80 rest on the reset values the spec
chose, D1 and D2 (log entry 1, unsafe). -/
def Obligations.LaunchBootsOrRefuses : Prop :=
  ∀ bytes : List Int,
    (bytes.length ≤ 256 ∧ (∀ b ∈ bytes, 0 ≤ b ∧ b ≤ 255) →
      ∃ t, State.launch bytes = .next t ∧ t.status = .running ∧ t.pc = 0 ∧ t.sp = 0xF4 ∧ t.fl = 0x80 ∧
        ∀ (n : Nat) (b : Int), bytes[n]? = some b → ∃ v : Byte, t.ram.read n = .ok v ∧ v.int = b) ∧
    (¬ (bytes.length ≤ 256 ∧ ∀ b ∈ bytes, 0 ≤ b ∧ b ≤ 255) →
      ∃ f, (State.reset.load bytes).2 = some f ∧ State.launch bytes = .refused (.runAfterFailedLoad f))

/-- R127: the snapshot returns PC, the bytes at PC, PC+1 and PC+2 (absent past the end of RAM), the eight registers and
FL (D23). -/
def Obligations.SnapshotShowsTheState : Prop :=
  ∀ s : State, s.snapshot.pc = s.pc ∧ s.snapshot.fl = s.fl ∧ s.snapshot.regs.length = 8 ∧
    (∀ k, k < 8 → s.snapshot.regs[k]? = some (s.x k)) ∧ s.snapshot.nextBytes.length = 3 ∧
    (∀ k, k < 3 → (s.pc + k < 256 → s.snapshot.nextBytes[k]? = some (some (s.ram.peek (s.pc + k)))) ∧
      (256 ≤ s.pc + k → s.snapshot.nextBytes[k]? = some none))

/-- R29: the line the sink shows for a byte is its decimal numeral, with no leading zero, then one line feed (D14). -/
def Obligations.SinkLineIsTheDecimalNumeral : Prop :=
  ∀ v : Byte, ∃ digits : List Char, sinkLine v = digits ++ ['\n'] ∧ digits ≠ [] ∧
    (∀ c ∈ digits, c.isDigit = true) ∧ (digits.length ≠ 1 → digits.head? ≠ some '0') ∧
    digits.foldl (fun n c => 10 * n + (c.toNat - 48)) 0 = v.toNat
end

