-- ==== Sys2Proof/Laws/Decode.lean ====
section
/-! SUPPORT. The small lemmas of the decoder: the fields and the dispatch of each of the ten opcodes (R62, R66), the
byte of a register number (R63), and the three shapes of a decoding. -/

namespace Sys2Proof

/-! ### Fields (R62) -/

@[simp] theorem operandCount_hlt : operandCount Opcode.hlt = 0 := rfl
@[simp] theorem operandCount_push : operandCount Opcode.push = 1 := rfl
@[simp] theorem operandCount_pop : operandCount Opcode.pop = 1 := rfl
@[simp] theorem operandCount_prn : operandCount Opcode.prn = 1 := rfl
@[simp] theorem operandCount_jmp : operandCount Opcode.jmp = 1 := rfl
@[simp] theorem operandCount_jne : operandCount Opcode.jne = 1 := rfl
@[simp] theorem operandCount_jeq : operandCount Opcode.jeq = 1 := rfl
@[simp] theorem operandCount_ldi : operandCount Opcode.ldi = 2 := rfl
@[simp] theorem operandCount_mul : operandCount Opcode.mul = 2 := rfl
@[simp] theorem operandCount_cmp : operandCount Opcode.cmp = 2 := rfl

@[simp] theorem isAluOp_hlt : isAluOp Opcode.hlt = false := rfl
@[simp] theorem isAluOp_push : isAluOp Opcode.push = false := rfl
@[simp] theorem isAluOp_pop : isAluOp Opcode.pop = false := rfl
@[simp] theorem isAluOp_prn : isAluOp Opcode.prn = false := rfl
@[simp] theorem isAluOp_jmp : isAluOp Opcode.jmp = false := rfl
@[simp] theorem isAluOp_jne : isAluOp Opcode.jne = false := rfl
@[simp] theorem isAluOp_jeq : isAluOp Opcode.jeq = false := rfl
@[simp] theorem isAluOp_ldi : isAluOp Opcode.ldi = false := rfl
@[simp] theorem isAluOp_mul : isAluOp Opcode.mul = true := rfl
@[simp] theorem isAluOp_cmp : isAluOp Opcode.cmp = true := rfl

@[simp] theorem setsPc_hlt : setsPc Opcode.hlt = false := rfl
@[simp] theorem setsPc_push : setsPc Opcode.push = false := rfl
@[simp] theorem setsPc_pop : setsPc Opcode.pop = false := rfl
@[simp] theorem setsPc_prn : setsPc Opcode.prn = false := rfl
@[simp] theorem setsPc_jmp : setsPc Opcode.jmp = true := rfl
@[simp] theorem setsPc_jne : setsPc Opcode.jne = true := rfl
@[simp] theorem setsPc_jeq : setsPc Opcode.jeq = true := rfl
@[simp] theorem setsPc_ldi : setsPc Opcode.ldi = false := rfl
@[simp] theorem setsPc_mul : setsPc Opcode.mul = false := rfl
@[simp] theorem setsPc_cmp : setsPc Opcode.cmp = false := rfl

/-! ### Dispatch (R66) -/

@[simp] theorem dispatch_hlt : dispatch Opcode.hlt = some (fun _ _ => .hlt) := rfl
@[simp] theorem dispatch_push : dispatch Opcode.push = some (fun r _ => .push r.toNat) := rfl
@[simp] theorem dispatch_pop : dispatch Opcode.pop = some (fun r _ => .pop r.toNat) := rfl
@[simp] theorem dispatch_prn : dispatch Opcode.prn = some (fun r _ => .prn r.toNat) := rfl
@[simp] theorem dispatch_jmp : dispatch Opcode.jmp = some (fun r _ => .jmp r.toNat) := rfl
@[simp] theorem dispatch_jne : dispatch Opcode.jne = some (fun r _ => .jne r.toNat) := rfl
@[simp] theorem dispatch_jeq : dispatch Opcode.jeq = some (fun r _ => .jeq r.toNat) := rfl
@[simp] theorem dispatch_ldi : dispatch Opcode.ldi = some (fun r imm => .ldi r.toNat imm) := rfl
@[simp] theorem dispatch_mul : dispatch Opcode.mul = some (fun a b => .mul a.toNat b.toNat) := rfl
@[simp] theorem dispatch_cmp : dispatch Opcode.cmp = some (fun a b => .cmp a.toNat b.toNat) := rfl

/-! ### Register numbers (R63) -/

theorem registerByte_toNat {r : Nat} (h : fitsOperandByte r = true) : (registerByte r).toNat = r := by
  simp only [fitsOperandByte, decide_eq_true_eq] at h
  simp only [registerByte, BitVec.toNat_ofNat]
  omega

@[simp] theorem registerByte_of_toNat (b : Byte) : registerByte b.toNat = b := by simp [registerByte]

@[simp] theorem fitsOperandByte_toNat (b : Byte) : fitsOperandByte b.toNat = true := by
  simpa [fitsOperandByte] using b.isLt

/-! ### Decoding by operand count (R57) -/

section
variable {op : Byte} {mk : Byte → Byte → Instr} {rest : List Byte}

theorem decode_of_dispatch_none (h : dispatch op = none) : decode (op :: rest) = .error (.unknownOpcode op) := by
  simp only [decode, h]

theorem decode_zero (h : dispatch op = some mk) (hc : operandCount op = 0) :
    decode (op :: rest) = .ok (mk 0 0, rest) := by simp only [decode, h, hc]

theorem decode_one {b1 : Byte} (h : dispatch op = some mk) (hc : operandCount op = 1) :
    decode (op :: b1 :: rest) = .ok (mk b1 0, rest) := by simp only [decode, h, hc]

theorem decode_two {b1 b2 : Byte} (h : dispatch op = some mk) (hc : operandCount op = 2) :
    decode (op :: b1 :: b2 :: rest) = .ok (mk b1 b2, rest) := by simp only [decode, h, hc]

theorem assemble_of_dispatch {b1 b2 : Byte} (h : dispatch op = some mk) : assemble op b1 b2 = some (mk b1 b2) := by
  simp only [assemble, h, Option.map_some]

end

end Sys2Proof
end

