-- ==== Sys2Proof/Laws/Memory.lean ====
section
/-! SUPPORT. The laws of GuardedMemory (R35 to R39): what a cell reads as after each operation, that every operation
keeps the canonical form, and what the guarded read and write answer. -/

namespace Sys2Proof.Machine

/-! ### Cells -/

@[simp] theorem cellAt_nil (a : Nat) : cellAt a [] = 0 := rfl

theorem cellAt_insertCell (a b : Nat) (v : Byte) (cells : List Host.Cell) :
    cellAt b (insertCell a v cells) = if b = a then v else cellAt b cells := by
  induction cells with
  | nil => simp [insertCell, cellAt]
  | cons c rest ih =>
    obtain ⟨n, w⟩ := c
    simp only [insertCell]
    split
    · simp [cellAt]
    · split
      · subst a; simp only [cellAt]; split <;> simp_all
      · simp only [cellAt, ih]; split <;> simp_all; omega

theorem cellAt_removeCell (a b : Nat) (cells : List Host.Cell) :
    cellAt b (removeCell a cells) = if b = a then 0 else cellAt b cells := by
  induction cells with
  | nil => simp [removeCell]
  | cons c rest ih =>
    obtain ⟨n, w⟩ := c
    simp only [removeCell]
    split
    · subst a; simp only [ih, cellAt]; split <;> simp_all
    · simp only [cellAt, ih]; split <;> simp_all; omega

theorem cellAt_putCell (a b : Nat) (v : Byte) (cells : List Host.Cell) :
    cellAt b (putCell a v cells) = if b = a then v else cellAt b cells := by
  unfold putCell
  split
  · simp_all [cellAt_removeCell]
  · exact cellAt_insertCell a b v cells

/-! ### Canonical form -/

theorem canonicalFrom_mono {lo lo' size : Nat} {cells : List Host.Cell} (h : lo' ≤ lo)
    (hc : canonicalFrom lo size cells = true) : canonicalFrom lo' size cells = true := by
  cases cells with
  | nil => rfl
  | cons c rest =>
    simp only [canonicalFrom, Bool.and_eq_true, decide_eq_true_eq] at hc ⊢
    exact ⟨⟨⟨by omega, hc.1.1.2⟩, hc.1.2⟩, hc.2⟩

theorem canonicalFrom_removeCell {lo size : Nat} {cells : List Host.Cell} (a : Nat)
    (hc : canonicalFrom lo size cells = true) : canonicalFrom lo size (removeCell a cells) = true := by
  induction cells generalizing lo with
  | nil => rfl
  | cons c rest ih =>
    obtain ⟨n, w⟩ := c
    simp only [canonicalFrom, Bool.and_eq_true, decide_eq_true_eq] at hc
    simp only [removeCell]
    split
    · exact canonicalFrom_mono (by omega) (ih hc.2)
    · simp only [canonicalFrom, Bool.and_eq_true, decide_eq_true_eq]
      exact ⟨hc.1, ih hc.2⟩

theorem canonicalFrom_insertCell {lo size a : Nat} {v : Byte} {cells : List Host.Cell} (hlo : lo ≤ a)
    (ha : a < size) (hv : v ≠ 0) (hc : canonicalFrom lo size cells = true) :
    canonicalFrom lo size (insertCell a v cells) = true := by
  have hv' : (v != 0) = true := bne_iff_ne.mpr hv
  induction cells generalizing lo with
  | nil => simpa [insertCell, canonicalFrom, hlo, ha] using hv
  | cons c rest ih =>
    obtain ⟨n, w⟩ := c
    simp only [canonicalFrom, Bool.and_eq_true, decide_eq_true_eq] at hc
    simp only [insertCell]
    split
    · simp only [canonicalFrom, Bool.and_eq_true, decide_eq_true_eq]
      exact ⟨⟨⟨hlo, ha⟩, hv'⟩, ⟨⟨⟨by omega, hc.1.1.2⟩, hc.1.2⟩, hc.2⟩⟩
    · split
      · subst a
        simp only [canonicalFrom, Bool.and_eq_true, decide_eq_true_eq]
        exact ⟨⟨⟨hlo, ha⟩, hv'⟩, hc.2⟩
      · simp only [canonicalFrom, Bool.and_eq_true, decide_eq_true_eq]
        exact ⟨hc.1, ih (by omega) hc.2⟩

theorem canonicalFrom_putCell {lo size a : Nat} {v : Byte} {cells : List Host.Cell} (hlo : lo ≤ a)
    (ha : a < size) (hc : canonicalFrom lo size cells = true) :
    canonicalFrom lo size (putCell a v cells) = true := by
  unfold putCell
  split
  · exact canonicalFrom_removeCell a hc
  · exact canonicalFrom_insertCell hlo ha ‹_› hc

theorem cellAt_of_lt {lo size a : Nat} {cells : List Host.Cell} (hc : canonicalFrom lo size cells = true)
    (h : a < lo) : cellAt a cells = 0 := by
  induction cells generalizing lo with
  | nil => rfl
  | cons c rest ih =>
    obtain ⟨n, w⟩ := c
    simp only [canonicalFrom, Bool.and_eq_true, decide_eq_true_eq] at hc
    simp only [cellAt]
    split
    · omega
    · exact ih hc.2 (by omega)

theorem cellAt_of_size_le {lo size a : Nat} {cells : List Host.Cell} (hc : canonicalFrom lo size cells = true)
    (h : size ≤ a) : cellAt a cells = 0 := by
  induction cells generalizing lo with
  | nil => rfl
  | cons c rest ih =>
    obtain ⟨n, w⟩ := c
    simp only [canonicalFrom, Bool.and_eq_true, decide_eq_true_eq] at hc
    simp only [cellAt]
    split
    · omega
    · exact ih hc.2

/-! ### The two checks -/

theorem inRange_iff {m : Store} {a : Int} : m.inRange a = true ↔ m.valid a := by
  cases a with
  | ofNat n =>
    simp only [Store.inRange, Store.valid, decide_eq_true_eq, Int.ofNat_eq_natCast]
    omega
  | negSucc n =>
    simp only [Store.inRange, Store.valid]
    constructor
    · intro h; cases h
    · intro h; have := h.1; omega

theorem byteOfInt_eq_some {v : Int} {b : Byte} : byteOfInt v = some b ↔ b.int = v := by
  have hb := b.isLt
  cases v with
  | ofNat n =>
    simp only [byteOfInt, Byte.int, Int.ofNat_eq_natCast, Int.natCast_inj]
    constructor
    · intro h
      split at h
      · cases h; exact BitVec.toNat_ofNat n 8 ▸ Nat.mod_eq_of_lt ‹_›
      · cases h
    · intro h; subst h; rw [if_pos hb]; simp
  | negSucc n =>
    simp only [byteOfInt, Byte.int]
    constructor
    · intro h; cases h
    · intro h; omega

theorem byteOfInt_eq_none {v : Int} : byteOfInt v = none ↔ ¬ (0 ≤ v ∧ v ≤ 255) := by
  cases v with
  | ofNat n =>
    simp only [byteOfInt, Int.ofNat_eq_natCast]
    split
    · constructor
      · intro h; cases h
      · intro h; omega
    · constructor
      · intro _; omega
      · intro _; rfl
  | negSucc n =>
    simp only [byteOfInt]
    constructor
    · intro _; omega
    · intro _; trivial

/-! ### The store -/

section
variable {m : Store} (mem : Memory m)

@[simp] theorem Memory.peek_poke (a b : Nat) (v : Byte) :
    (mem.poke a v).peek b = if b = a then v else mem.peek b := cellAt_putCell a b v mem.cells

@[simp] theorem Memory.peek_clear (a : Nat) : mem.clear.peek a = 0 := rfl

theorem Memory.wf_poke {a : Nat} {v : Byte} (ha : a < m.size) (h : mem.wf = true) : (mem.poke a v).wf = true :=
  canonicalFrom_putCell (Nat.zero_le _) ha h

@[simp] theorem Memory.wf_clear : mem.clear.wf = true := rfl

theorem Memory.peek_of_size_le {a : Nat} (h : mem.wf = true) (ha : m.size ≤ a) : mem.peek a = 0 :=
  cellAt_of_size_le h ha

/-- Everything a guarded read can answer (R36). -/
theorem Memory.read_cases (a : Int) :
    (m.valid a ∧ mem.read a = .ok (mem.peek a.toNat)) ∨ (¬ m.valid a ∧ mem.read a = .error (.outOfBounds m a)) := by
  unfold Memory.read
  split
  · exact .inl ⟨inRange_iff.mp ‹_›, rfl⟩
  · exact .inr ⟨fun h => ‹¬ _› (inRange_iff.mpr h), rfl⟩

theorem Memory.read_of_valid {a : Int} (h : m.valid a) : mem.read a = .ok (mem.peek a.toNat) :=
  if_pos (inRange_iff.mpr h)

theorem Memory.read_of_not_valid {a : Int} (h : ¬ m.valid a) : mem.read a = .error (.outOfBounds m a) :=
  if_neg (fun hr => h (inRange_iff.mp hr))

theorem Memory.read_nat {a : Nat} (h : a < m.size) : mem.read a = .ok (mem.peek a) :=
  mem.read_of_valid ⟨Int.natCast_nonneg a, Int.ofNat_lt.mpr h⟩

/-- Everything a guarded write can answer (R37). -/
theorem Memory.write_cases (a v : Int) :
    (m.valid a ∧ (∃ b : Byte, b.int = v ∧ mem.write a v = .ok (mem.poke a.toNat b))) ∨
    (m.valid a ∧ ¬ (0 ≤ v ∧ v ≤ 255) ∧ mem.write a v = .error (.invalidByteValue m a v)) ∨
    (¬ m.valid a ∧ mem.write a v = .error (.outOfBounds m a)) := by
  unfold Memory.write
  split
  · have ha := inRange_iff.mp ‹_›
    cases hv : byteOfInt v with
    | some b => exact .inl ⟨ha, b, byteOfInt_eq_some.mp hv, rfl⟩
    | none => exact .inr (.inl ⟨ha, byteOfInt_eq_none.mp hv, rfl⟩)
  · exact .inr (.inr ⟨fun h => ‹¬ _› (inRange_iff.mpr h), rfl⟩)

theorem Memory.write_of_valid {a : Int} {b : Byte} (h : m.valid a) : mem.write a b.int = .ok (mem.poke a.toNat b) := by
  simp only [Memory.write, inRange_iff.mpr h, if_true, byteOfInt_eq_some.mpr rfl]

theorem Memory.write_nat {a : Nat} {b : Byte} (h : a < m.size) : mem.write a b.int = .ok (mem.poke a b) :=
  mem.write_of_valid ⟨Int.natCast_nonneg a, Int.ofNat_lt.mpr h⟩

theorem Memory.write_of_bad_value {a v : Int} (h : m.valid a) (hv : ¬ (0 ≤ v ∧ v ≤ 255)) :
    mem.write a v = .error (.invalidByteValue m a v) := by
  simp only [Memory.write, inRange_iff.mpr h, if_true, byteOfInt_eq_none.mpr hv]

theorem Memory.write_of_not_valid {a v : Int} (h : ¬ m.valid a) : mem.write a v = .error (.outOfBounds m a) :=
  if_neg (fun hr => h (inRange_iff.mp hr))

/-- A guarded write keeps the canonical form (R35, R39). -/
theorem Memory.wf_write {a v : Int} {mem' : Memory m} (h : mem.wf = true) (hw : mem.write a v = .ok mem') :
    mem'.wf = true := by
  rcases mem.write_cases a v with ⟨ha, _, _, e⟩ | ⟨_, _, e⟩ | ⟨_, e⟩ <;> rw [e] at hw
  · cases hw
    exact mem.wf_poke (by have := ha.1; have := ha.2; omega) h
  · cases hw
  · cases hw

end

/-- Bytes placed inside RAM keep its canonical form. -/
theorem wf_placeBytes {a : Nat} {bs : List Byte} {mem : Memory .ram} (ha : a + bs.length ≤ Config.memSize)
    (h : mem.wf = true) : (placeBytes a bs mem).wf = true := by
  induction bs generalizing a mem with
  | nil => exact h
  | cons b rest ih =>
    simp only [List.length_cons] at ha
    exact ih (by omega) (mem.wf_poke (show a < Store.size .ram by simp only [Store.size]; omega) h)

/-- Loading keeps the canonical form, whether it succeeds or not (R131, R132). -/
theorem wf_loadBytes {a : Nat} {bs : List Int} {mem : Memory .ram} (h : mem.wf = true) :
    (loadBytes a bs mem).1.wf = true := by
  induction bs generalizing a mem with
  | nil => simpa only [loadBytes] using h
  | cons b rest ih =>
    simp only [loadBytes]
    cases hw : mem.write a b with
    | ok mem' => exact ih (mem.wf_write h hw)
    | error f => exact h

/-- The memory of the reset state is in canonical form. -/
theorem reset_memory_wf : State.reset.ram.wf = true ∧ State.reset.reg.wf = true := by decide

end Sys2Proof.Machine
end

