-- ==== Sys2Proof/Laws/State.lean ====
section
/-! SUPPORT. One lemma per field per update of the state, true by rfl, so that no later proof unfolds a record update. -/

namespace Sys2Proof.Machine

/-! ### setRam -/

@[simp] theorem State.setRam_ram (s : State) (m : Memory .ram) : (s.setRam m).ram = m := rfl
@[simp] theorem State.setRam_reg (s : State) (m : Memory .ram) : (s.setRam m).reg = s.reg := rfl
@[simp] theorem State.setRam_pc (s : State) (m : Memory .ram) : (s.setRam m).pc = s.pc := rfl
@[simp] theorem State.setRam_ir (s : State) (m : Memory .ram) : (s.setRam m).ir = s.ir := rfl
@[simp] theorem State.setRam_fl (s : State) (m : Memory .ram) : (s.setRam m).fl = s.fl := rfl
@[simp] theorem State.setRam_fault (s : State) (m : Memory .ram) : (s.setRam m).fault = s.fault := rfl
@[simp] theorem State.setRam_out (s : State) (m : Memory .ram) : (s.setRam m).out = s.out := rfl
@[simp] theorem State.setRam_diag (s : State) (m : Memory .ram) : (s.setRam m).diag = s.diag := rfl

/-! ### setReg -/

@[simp] theorem State.setReg_ram (s : State) (m : Memory .reg) : (s.setReg m).ram = s.ram := rfl
@[simp] theorem State.setReg_reg (s : State) (m : Memory .reg) : (s.setReg m).reg = m := rfl
@[simp] theorem State.setReg_pc (s : State) (m : Memory .reg) : (s.setReg m).pc = s.pc := rfl
@[simp] theorem State.setReg_ir (s : State) (m : Memory .reg) : (s.setReg m).ir = s.ir := rfl
@[simp] theorem State.setReg_fl (s : State) (m : Memory .reg) : (s.setReg m).fl = s.fl := rfl
@[simp] theorem State.setReg_fault (s : State) (m : Memory .reg) : (s.setReg m).fault = s.fault := rfl
@[simp] theorem State.setReg_out (s : State) (m : Memory .reg) : (s.setReg m).out = s.out := rfl
@[simp] theorem State.setReg_diag (s : State) (m : Memory .reg) : (s.setReg m).diag = s.diag := rfl

/-! ### setX -/

@[simp] theorem State.setX_ram (s : State) (i : Nat) (v : Byte) : (s.setX i v).ram = s.ram := rfl
@[simp] theorem State.setX_reg (s : State) (i : Nat) (v : Byte) : (s.setX i v).reg = s.reg.poke i v := rfl
@[simp] theorem State.setX_pc (s : State) (i : Nat) (v : Byte) : (s.setX i v).pc = s.pc := rfl
@[simp] theorem State.setX_ir (s : State) (i : Nat) (v : Byte) : (s.setX i v).ir = s.ir := rfl
@[simp] theorem State.setX_fl (s : State) (i : Nat) (v : Byte) : (s.setX i v).fl = s.fl := rfl
@[simp] theorem State.setX_fault (s : State) (i : Nat) (v : Byte) : (s.setX i v).fault = s.fault := rfl
@[simp] theorem State.setX_out (s : State) (i : Nat) (v : Byte) : (s.setX i v).out = s.out := rfl
@[simp] theorem State.setX_diag (s : State) (i : Nat) (v : Byte) : (s.setX i v).diag = s.diag := rfl

/-! ### setByte -/

@[simp] theorem State.setByte_ram (s : State) (a : Nat) (v : Byte) : (s.setByte a v).ram = s.ram.poke a v := rfl
@[simp] theorem State.setByte_reg (s : State) (a : Nat) (v : Byte) : (s.setByte a v).reg = s.reg := rfl
@[simp] theorem State.setByte_pc (s : State) (a : Nat) (v : Byte) : (s.setByte a v).pc = s.pc := rfl
@[simp] theorem State.setByte_ir (s : State) (a : Nat) (v : Byte) : (s.setByte a v).ir = s.ir := rfl
@[simp] theorem State.setByte_fl (s : State) (a : Nat) (v : Byte) : (s.setByte a v).fl = s.fl := rfl
@[simp] theorem State.setByte_fault (s : State) (a : Nat) (v : Byte) : (s.setByte a v).fault = s.fault := rfl
@[simp] theorem State.setByte_out (s : State) (a : Nat) (v : Byte) : (s.setByte a v).out = s.out := rfl
@[simp] theorem State.setByte_diag (s : State) (a : Nat) (v : Byte) : (s.setByte a v).diag = s.diag := rfl

/-! ### setPc -/

@[simp] theorem State.setPc_ram (s : State) (n : Nat) : (s.setPc n).ram = s.ram := rfl
@[simp] theorem State.setPc_reg (s : State) (n : Nat) : (s.setPc n).reg = s.reg := rfl
@[simp] theorem State.setPc_pc (s : State) (n : Nat) : (s.setPc n).pc = n := rfl
@[simp] theorem State.setPc_ir (s : State) (n : Nat) : (s.setPc n).ir = s.ir := rfl
@[simp] theorem State.setPc_fl (s : State) (n : Nat) : (s.setPc n).fl = s.fl := rfl
@[simp] theorem State.setPc_fault (s : State) (n : Nat) : (s.setPc n).fault = s.fault := rfl
@[simp] theorem State.setPc_out (s : State) (n : Nat) : (s.setPc n).out = s.out := rfl
@[simp] theorem State.setPc_diag (s : State) (n : Nat) : (s.setPc n).diag = s.diag := rfl

/-! ### setIr -/

@[simp] theorem State.setIr_ram (s : State) (b : Byte) : (s.setIr b).ram = s.ram := rfl
@[simp] theorem State.setIr_reg (s : State) (b : Byte) : (s.setIr b).reg = s.reg := rfl
@[simp] theorem State.setIr_pc (s : State) (b : Byte) : (s.setIr b).pc = s.pc := rfl
@[simp] theorem State.setIr_ir (s : State) (b : Byte) : (s.setIr b).ir = b := rfl
@[simp] theorem State.setIr_fl (s : State) (b : Byte) : (s.setIr b).fl = s.fl := rfl
@[simp] theorem State.setIr_fault (s : State) (b : Byte) : (s.setIr b).fault = s.fault := rfl
@[simp] theorem State.setIr_out (s : State) (b : Byte) : (s.setIr b).out = s.out := rfl
@[simp] theorem State.setIr_diag (s : State) (b : Byte) : (s.setIr b).diag = s.diag := rfl

/-! ### setFl -/

@[simp] theorem State.setFl_ram (s : State) (f : Byte) : (s.setFl f).ram = s.ram := rfl
@[simp] theorem State.setFl_reg (s : State) (f : Byte) : (s.setFl f).reg = s.reg := rfl
@[simp] theorem State.setFl_pc (s : State) (f : Byte) : (s.setFl f).pc = s.pc := rfl
@[simp] theorem State.setFl_ir (s : State) (f : Byte) : (s.setFl f).ir = s.ir := rfl
@[simp] theorem State.setFl_fl (s : State) (f : Byte) : (s.setFl f).fl = f := rfl
@[simp] theorem State.setFl_fault (s : State) (f : Byte) : (s.setFl f).fault = s.fault := rfl
@[simp] theorem State.setFl_out (s : State) (f : Byte) : (s.setFl f).out = s.out := rfl
@[simp] theorem State.setFl_diag (s : State) (f : Byte) : (s.setFl f).diag = s.diag := rfl

/-! ### setFault -/

@[simp] theorem State.setFault_ram (s : State) (f : Option Fault) : (s.setFault f).ram = s.ram := rfl
@[simp] theorem State.setFault_reg (s : State) (f : Option Fault) : (s.setFault f).reg = s.reg := rfl
@[simp] theorem State.setFault_pc (s : State) (f : Option Fault) : (s.setFault f).pc = s.pc := rfl
@[simp] theorem State.setFault_ir (s : State) (f : Option Fault) : (s.setFault f).ir = s.ir := rfl
@[simp] theorem State.setFault_fl (s : State) (f : Option Fault) : (s.setFault f).fl = s.fl := rfl
@[simp] theorem State.setFault_fault (s : State) (f : Option Fault) : (s.setFault f).fault = f := rfl
@[simp] theorem State.setFault_out (s : State) (f : Option Fault) : (s.setFault f).out = s.out := rfl
@[simp] theorem State.setFault_diag (s : State) (f : Option Fault) : (s.setFault f).diag = s.diag := rfl

/-! ### emit -/

@[simp] theorem State.emit_ram (s : State) (v : Byte) : (s.emit v).ram = s.ram := rfl
@[simp] theorem State.emit_reg (s : State) (v : Byte) : (s.emit v).reg = s.reg := rfl
@[simp] theorem State.emit_pc (s : State) (v : Byte) : (s.emit v).pc = s.pc := rfl
@[simp] theorem State.emit_ir (s : State) (v : Byte) : (s.emit v).ir = s.ir := rfl
@[simp] theorem State.emit_fl (s : State) (v : Byte) : (s.emit v).fl = s.fl := rfl
@[simp] theorem State.emit_fault (s : State) (v : Byte) : (s.emit v).fault = s.fault := rfl
@[simp] theorem State.emit_out (s : State) (v : Byte) : (s.emit v).out = s.out ++ [v] := rfl
@[simp] theorem State.emit_diag (s : State) (v : Byte) : (s.emit v).diag = s.diag := rfl

/-! ### addReport -/

@[simp] theorem State.addReport_ram (s : State) (op : Byte) (n : Nat) : (s.addReport op n).ram = s.ram := rfl
@[simp] theorem State.addReport_reg (s : State) (op : Byte) (n : Nat) : (s.addReport op n).reg = s.reg := rfl
@[simp] theorem State.addReport_pc (s : State) (op : Byte) (n : Nat) : (s.addReport op n).pc = s.pc := rfl
@[simp] theorem State.addReport_ir (s : State) (op : Byte) (n : Nat) : (s.addReport op n).ir = s.ir := rfl
@[simp] theorem State.addReport_fl (s : State) (op : Byte) (n : Nat) : (s.addReport op n).fl = s.fl := rfl
@[simp] theorem State.addReport_fault (s : State) (op : Byte) (n : Nat) : (s.addReport op n).fault = s.fault := rfl
@[simp] theorem State.addReport_out (s : State) (op : Byte) (n : Nat) : (s.addReport op n).out = s.out := rfl
@[simp] theorem State.addReport_diag (s : State) (op : Byte) (n : Nat) : (s.addReport op n).diag = s.diag ++ [⟨op, n⟩] := rfl

/-! ### takeFault -/

@[simp] theorem State.takeFault_ram (s : State) (f : Fault) : (s.takeFault f).ram = s.ram := rfl
@[simp] theorem State.takeFault_reg (s : State) (f : Fault) : (s.takeFault f).reg = s.reg := rfl
@[simp] theorem State.takeFault_pc (s : State) (f : Fault) : (s.takeFault f).pc = s.pc := rfl
@[simp] theorem State.takeFault_ir (s : State) (f : Fault) : (s.takeFault f).ir = s.ir := rfl
@[simp] theorem State.takeFault_fl (s : State) (f : Fault) : (s.takeFault f).fl = s.fl := rfl
@[simp] theorem State.takeFault_fault (s : State) (f : Fault) : (s.takeFault f).fault = s.fault.or (some f) := rfl
@[simp] theorem State.takeFault_out (s : State) (f : Fault) : (s.takeFault f).out = s.out := rfl
@[simp] theorem State.takeFault_diag (s : State) (f : Fault) : (s.takeFault f).diag = s.diag := rfl

/-! ### x, sp and the flags through an update that leaves their home alone -/

@[simp] theorem State.setRam_x (s : State) (m : Memory .ram) (k : Nat) : (s.setRam m).x k = s.x k := rfl
@[simp] theorem State.setRam_sp (s : State) (m : Memory .ram) : (s.setRam m).sp = s.sp := rfl
@[simp] theorem State.setRam_running (s : State) (m : Memory .ram) : (s.setRam m).running = s.running := rfl
@[simp] theorem State.setRam_less (s : State) (m : Memory .ram) : (s.setRam m).less = s.less := rfl
@[simp] theorem State.setRam_greater (s : State) (m : Memory .ram) : (s.setRam m).greater = s.greater := rfl
@[simp] theorem State.setRam_equal (s : State) (m : Memory .ram) : (s.setRam m).equal = s.equal := rfl
@[simp] theorem State.setReg_running (s : State) (m : Memory .reg) : (s.setReg m).running = s.running := rfl
@[simp] theorem State.setReg_less (s : State) (m : Memory .reg) : (s.setReg m).less = s.less := rfl
@[simp] theorem State.setReg_greater (s : State) (m : Memory .reg) : (s.setReg m).greater = s.greater := rfl
@[simp] theorem State.setReg_equal (s : State) (m : Memory .reg) : (s.setReg m).equal = s.equal := rfl
@[simp] theorem State.setX_running (s : State) (i : Nat) (v : Byte) : (s.setX i v).running = s.running := rfl
@[simp] theorem State.setX_less (s : State) (i : Nat) (v : Byte) : (s.setX i v).less = s.less := rfl
@[simp] theorem State.setX_greater (s : State) (i : Nat) (v : Byte) : (s.setX i v).greater = s.greater := rfl
@[simp] theorem State.setX_equal (s : State) (i : Nat) (v : Byte) : (s.setX i v).equal = s.equal := rfl
@[simp] theorem State.setByte_x (s : State) (a : Nat) (v : Byte) (k : Nat) : (s.setByte a v).x k = s.x k := rfl
@[simp] theorem State.setByte_sp (s : State) (a : Nat) (v : Byte) : (s.setByte a v).sp = s.sp := rfl
@[simp] theorem State.setByte_running (s : State) (a : Nat) (v : Byte) : (s.setByte a v).running = s.running := rfl
@[simp] theorem State.setByte_less (s : State) (a : Nat) (v : Byte) : (s.setByte a v).less = s.less := rfl
@[simp] theorem State.setByte_greater (s : State) (a : Nat) (v : Byte) : (s.setByte a v).greater = s.greater := rfl
@[simp] theorem State.setByte_equal (s : State) (a : Nat) (v : Byte) : (s.setByte a v).equal = s.equal := rfl
@[simp] theorem State.setPc_x (s : State) (n : Nat) (k : Nat) : (s.setPc n).x k = s.x k := rfl
@[simp] theorem State.setPc_sp (s : State) (n : Nat) : (s.setPc n).sp = s.sp := rfl
@[simp] theorem State.setPc_running (s : State) (n : Nat) : (s.setPc n).running = s.running := rfl
@[simp] theorem State.setPc_less (s : State) (n : Nat) : (s.setPc n).less = s.less := rfl
@[simp] theorem State.setPc_greater (s : State) (n : Nat) : (s.setPc n).greater = s.greater := rfl
@[simp] theorem State.setPc_equal (s : State) (n : Nat) : (s.setPc n).equal = s.equal := rfl
@[simp] theorem State.setIr_x (s : State) (b : Byte) (k : Nat) : (s.setIr b).x k = s.x k := rfl
@[simp] theorem State.setIr_sp (s : State) (b : Byte) : (s.setIr b).sp = s.sp := rfl
@[simp] theorem State.setIr_running (s : State) (b : Byte) : (s.setIr b).running = s.running := rfl
@[simp] theorem State.setIr_less (s : State) (b : Byte) : (s.setIr b).less = s.less := rfl
@[simp] theorem State.setIr_greater (s : State) (b : Byte) : (s.setIr b).greater = s.greater := rfl
@[simp] theorem State.setIr_equal (s : State) (b : Byte) : (s.setIr b).equal = s.equal := rfl
@[simp] theorem State.setFl_x (s : State) (f : Byte) (k : Nat) : (s.setFl f).x k = s.x k := rfl
@[simp] theorem State.setFl_sp (s : State) (f : Byte) : (s.setFl f).sp = s.sp := rfl
@[simp] theorem State.setFault_x (s : State) (f : Option Fault) (k : Nat) : (s.setFault f).x k = s.x k := rfl
@[simp] theorem State.setFault_sp (s : State) (f : Option Fault) : (s.setFault f).sp = s.sp := rfl
@[simp] theorem State.setFault_running (s : State) (f : Option Fault) : (s.setFault f).running = s.running := rfl
@[simp] theorem State.setFault_less (s : State) (f : Option Fault) : (s.setFault f).less = s.less := rfl
@[simp] theorem State.setFault_greater (s : State) (f : Option Fault) : (s.setFault f).greater = s.greater := rfl
@[simp] theorem State.setFault_equal (s : State) (f : Option Fault) : (s.setFault f).equal = s.equal := rfl
@[simp] theorem State.emit_x (s : State) (v : Byte) (k : Nat) : (s.emit v).x k = s.x k := rfl
@[simp] theorem State.emit_sp (s : State) (v : Byte) : (s.emit v).sp = s.sp := rfl
@[simp] theorem State.emit_running (s : State) (v : Byte) : (s.emit v).running = s.running := rfl
@[simp] theorem State.emit_less (s : State) (v : Byte) : (s.emit v).less = s.less := rfl
@[simp] theorem State.emit_greater (s : State) (v : Byte) : (s.emit v).greater = s.greater := rfl
@[simp] theorem State.emit_equal (s : State) (v : Byte) : (s.emit v).equal = s.equal := rfl
@[simp] theorem State.addReport_x (s : State) (op : Byte) (n : Nat) (k : Nat) : (s.addReport op n).x k = s.x k := rfl
@[simp] theorem State.addReport_sp (s : State) (op : Byte) (n : Nat) : (s.addReport op n).sp = s.sp := rfl
@[simp] theorem State.addReport_running (s : State) (op : Byte) (n : Nat) : (s.addReport op n).running = s.running := rfl
@[simp] theorem State.addReport_less (s : State) (op : Byte) (n : Nat) : (s.addReport op n).less = s.less := rfl
@[simp] theorem State.addReport_greater (s : State) (op : Byte) (n : Nat) : (s.addReport op n).greater = s.greater := rfl
@[simp] theorem State.addReport_equal (s : State) (op : Byte) (n : Nat) : (s.addReport op n).equal = s.equal := rfl
@[simp] theorem State.takeFault_x (s : State) (f : Fault) (k : Nat) : (s.takeFault f).x k = s.x k := rfl
@[simp] theorem State.takeFault_sp (s : State) (f : Fault) : (s.takeFault f).sp = s.sp := rfl

/-! ### the same field written twice -/

@[simp] theorem State.setPc_setPc (s : State) (a b : Nat) : (s.setPc a).setPc b = s.setPc b := rfl
@[simp] theorem State.setIr_setIr (s : State) (a b : Byte) : (s.setIr a).setIr b = s.setIr b := rfl
@[simp] theorem State.setFl_setFl (s : State) (a b : Byte) : (s.setFl a).setFl b = s.setFl b := rfl
@[simp] theorem State.setReg_setReg (s : State) (a b : Memory .reg) : (s.setReg a).setReg b = s.setReg b := rfl
@[simp] theorem State.setRam_setRam (s : State) (a b : Memory .ram) : (s.setRam a).setRam b = s.setRam b := rfl

end Sys2Proof.Machine
end

