-- ==== Sys2Proof/Laws/Handlers.lean ====
section
/-! SUPPORT. What each primitive of the pseudocode answers (R9, R10), and the frame an instruction runs in: one lemma
per outcome, which the proofs about instructions cite instead of unfolding the primitive. -/

namespace Sys2Proof.Machine

/-! ### Bytes and exact integers -/

theorem Byte.int_sub_one {b : Byte} (h : b ≠ 0) : Byte.int b - 1 = Byte.int (b - 1) := by
  have h0 : b.toNat ≠ 0 := fun e => h (BitVec.eq_of_toNat_eq (by simpa using e))
  have := b.isLt
  have h1 : (1 : Byte).toNat = 1 := rfl
  simp only [Byte.int, BitVec.toNat_sub, h1]
  omega

theorem Byte.int_add_one {b : Byte} (h : b ≠ 255) : Byte.int b + 1 = Byte.int (b + 1) := by
  have h0 : b.toNat ≠ 255 := fun e => h (BitVec.eq_of_toNat_eq (by simpa using e))
  have := b.isLt
  have h1 : (1 : Byte).toNat = 1 := rfl
  simp only [Byte.int, BitVec.toNat_add, h1]
  omega

theorem Byte.int_mul {a b : Byte} (h : a.toNat * b.toNat ≤ 255) : Byte.int a * Byte.int b = Byte.int (a * b) := by
  simp only [Byte.int, BitVec.toNat_mul]
  rw [Nat.mod_eq_of_lt (by omega)]
  exact (Int.natCast_mul _ _).symm

theorem Byte.int_range (b : Byte) : 0 ≤ Byte.int b ∧ Byte.int b ≤ 255 := by
  have := b.isLt
  simp only [Byte.int]
  omega

theorem not_valid_reg {r : Nat} (h : 8 ≤ r) : ¬ Store.valid .reg (r : Int) := by
  simp only [Store.valid, Store.size, Config.regCount]; omega

theorem valid_reg {r : Nat} (h : r < 8) : Store.valid .reg (r : Int) := by
  simp only [Store.valid, Store.size, Config.regCount]; omega

theorem not_valid_ram {a : Nat} (h : 256 ≤ a) : ¬ Store.valid .ram (a : Int) := by
  simp only [Store.valid, Store.size, Config.memSize]; omega

theorem valid_ram {a : Nat} (h : a < 256) : Store.valid .ram (a : Int) := by
  simp only [Store.valid, Store.size, Config.memSize]; omega

/-! ### Registers through an update -/

@[simp] theorem State.setX_x (s : State) (i k : Nat) (v : Byte) : (s.setX i v).x k = if k = i then v else s.x k :=
  s.reg.peek_poke i k v

theorem State.setX_sp (s : State) (i : Nat) (v : Byte) : (s.setX i v).sp = if 7 = i then v else s.sp :=
  s.setX_x i 7 v

/-! ### Register and memory primitives -/

section
variable {s : State}

/-- A register read never changes the state (R36). -/
theorem readReg_cases (i : Int) :
    (Store.valid .reg i ∧ (readReg i).run s = .ok (s.x i.toNat) s) ∨
    (¬ Store.valid .reg i ∧ (readReg i).run s = .error (.outOfBounds .reg i) s) := by
  rcases s.reg.read_cases i with ⟨h, e⟩ | ⟨h, e⟩
  · exact .inl ⟨h, by simp only [EStateM.run, readReg, e]; rfl⟩
  · exact .inr ⟨h, by simp only [EStateM.run, readReg, e]⟩

theorem readReg_ok {r : Nat} (h : r < 8) : (readReg r).run s = .ok (s.x r) s := by
  simp only [EStateM.run, readReg, s.reg.read_nat (show r < Store.size .reg from h)]; rfl

theorem readReg_bad {r : Nat} (h : 8 ≤ r) : (readReg r).run s = .error (.outOfBounds .reg r) s := by
  simp only [EStateM.run, readReg, s.reg.read_of_not_valid (not_valid_reg h)]

@[simp] theorem readSp_run : readSp.run s = .ok s.sp s := readReg_ok (r := 7) (by decide)

theorem writeReg_ok {r : Nat} (v : Byte) (h : r < 8) : (writeReg r v.int).run s = .ok () (s.setX r v) := by
  simp only [EStateM.run, writeReg, s.reg.write_nat (show r < Store.size .reg from h)]; rfl

theorem writeReg_bad {r : Nat} (v : Int) (h : 8 ≤ r) : (writeReg r v).run s = .error (.outOfBounds .reg r) s := by
  simp only [EStateM.run, writeReg, s.reg.write_of_not_valid (not_valid_reg h)]

theorem writeReg_bad_value {r : Nat} {v : Int} (h : r < 8) (hv : ¬ (0 ≤ v ∧ v ≤ 255)) :
    (writeReg r v).run s = .error (.invalidByteValue .reg r v) s := by
  simp only [EStateM.run, writeReg, s.reg.write_of_bad_value (valid_reg h) hv]

theorem writeSp_ok (v : Byte) : (writeSp v.int).run s = .ok () (s.setX 7 v) := writeReg_ok (r := 7) v (by decide)

theorem writeSp_bad_value {v : Int} (hv : ¬ (0 ≤ v ∧ v ≤ 255)) :
    (writeSp v).run s = .error (.invalidByteValue .reg 7 v) s := writeReg_bad_value (r := 7) (by decide) hv

theorem memRead_ok {a : Nat} (h : a < 256) : (memRead a).run s = .ok (s.ram.peek a) s := by
  simp only [EStateM.run, memRead, s.ram.read_nat (show a < Store.size .ram from h)]

theorem memRead_bad {a : Nat} (h : 256 ≤ a) : (memRead a).run s = .error (.outOfBounds .ram a) s := by
  simp only [EStateM.run, memRead, s.ram.read_of_not_valid (not_valid_ram h)]

theorem memRead_byte (b : Byte) : (memRead b.int).run s = .ok (s.ram.peek b.toNat) s := memRead_ok b.isLt

theorem memWrite_ok {a : Nat} (v : Byte) (h : a < 256) : (memWrite a v.int).run s = .ok () (s.setByte a v) := by
  simp only [EStateM.run, memWrite, s.ram.write_nat (show a < Store.size .ram from h)]; rfl

theorem memWrite_byte (b v : Byte) : (memWrite b.int v.int).run s = .ok () (s.setByte b.toNat v) :=
  memWrite_ok v b.isLt

/-! ### Operand reads -/

theorem fetchOperand_ok {k : Nat} (h : s.pc + k < 256) : (fetchOperand k).run s = .ok () s := by
  simp only [fetchOperand, EStateM.run_bind, EStateM.run_get, memRead_ok h, EStateM.run_pure]

theorem fetchOperand_bad {k : Nat} (h : 256 ≤ s.pc + k) :
    (fetchOperand k).run s = .error (.outOfBounds .ram ((s.pc + k : Nat) : Int)) s := by
  simp only [fetchOperand, EStateM.run_bind, EStateM.run_get, memRead_bad h]

theorem fetchAluOperands_ok (h : s.pc + 2 < 256) : fetchAluOperands.run s = .ok () s := by
  simp only [fetchAluOperands, EStateM.run_bind, fetchOperand_ok (show s.pc + 1 < 256 by omega), fetchOperand_ok h]

theorem fetchAluOperands_bad_first (h : 256 ≤ s.pc + 1) :
    fetchAluOperands.run s = .error (.outOfBounds .ram ((s.pc + 1 : Nat) : Int)) s := by
  simp only [fetchAluOperands, EStateM.run_bind, fetchOperand_bad h]

theorem fetchAluOperands_bad_second (h : s.pc + 1 < 256) (h2 : 256 ≤ s.pc + 2) :
    fetchAluOperands.run s = .error (.outOfBounds .ram ((s.pc + 2 : Nat) : Int)) s := by
  simp only [fetchAluOperands, EStateM.run_bind, fetchOperand_ok h, fetchOperand_bad h2]

/-! ### Handlers of the instructions that share one -/

@[simp] theorem haltHandler_run : haltHandler.run s = .ok () (s.setFl (flClearRunning s.fl)) := rfl

@[simp] theorem skipHandler_run : skipHandler.run s = .ok () (s.setPc (s.pc + 2)) := rfl

/-- Everything the action of JMP can do (R97). -/
theorem jumpHandler_cases (r : Nat) :
    (256 ≤ s.pc + 1 ∧ (jumpHandler r).run s = .error (.outOfBounds .ram ((s.pc + 1 : Nat) : Int)) s) ∨
    (s.pc + 1 < 256 ∧ 8 ≤ r ∧ (jumpHandler r).run s = .error (.outOfBounds .reg r) s) ∨
    (s.pc + 1 < 256 ∧ r < 8 ∧ (jumpHandler r).run s = .ok () (s.setPc (s.x r).toNat)) := by
  by_cases hp : s.pc + 1 < 256
  · by_cases hr : r < 8
    · exact .inr (.inr ⟨hp, hr, by
        simp only [jumpHandler, EStateM.run_bind, fetchOperand_ok hp, readReg_ok hr, EStateM.run_modify]⟩)
    · exact .inr (.inl ⟨hp, by omega, by
        simp only [jumpHandler, EStateM.run_bind, fetchOperand_ok hp, readReg_bad (Nat.le_of_not_lt hr)]⟩)
  · exact .inl ⟨by omega, by
      simp only [jumpHandler, EStateM.run_bind, fetchOperand_bad (Nat.le_of_not_lt hp)]⟩

/-! ### The frame of an instruction -/

theorem runHandler_ok {op : Byte} {h : Handler Unit} {s' : State} (e : h.run s = .ok () s') :
    runHandler op h s = .next (s'.advance op) := by simp only [runHandler, e]

theorem runHandler_error {op : Byte} {h : Handler Unit} {f : Fault} {s' : State} (e : h.run s = .error f s') :
    runHandler op h s = .next (s'.takeFault f) := by simp only [runHandler, e]

/-- Everything an instruction's frame can do: it always answers a next state (R88). -/
theorem runHandler_cases (op : Byte) (h : Handler Unit) :
    (∃ s', h.run s = .ok () s' ∧ runHandler op h s = .next (s'.advance op)) ∨
    (∃ f s', h.run s = .error f s' ∧ runHandler op h s = .next (s'.takeFault f)) := by
  cases e : h.run s with
  | ok u s' => exact .inl ⟨s', rfl, runHandler_ok e⟩
  | error f s' => exact .inr ⟨f, s', rfl, runHandler_error e⟩

end

/-! ### The advance (R84) -/

section
variable (s : State) (op : Byte)

theorem State.advance_of_not_setsPc {op : Byte} (h : setsPc op = false) :
    s.advance op = s.setPc (s.pc + instrLength op) := by simp [State.advance, h]

theorem State.advance_of_setsPc {op : Byte} (h : setsPc op = true) : s.advance op = s := by simp [State.advance, h]

@[simp] theorem State.advance_hlt : s.advance Opcode.hlt = s.setPc (s.pc + 1) := rfl
@[simp] theorem State.advance_push : s.advance Opcode.push = s.setPc (s.pc + 2) := rfl
@[simp] theorem State.advance_pop : s.advance Opcode.pop = s.setPc (s.pc + 2) := rfl
@[simp] theorem State.advance_prn : s.advance Opcode.prn = s.setPc (s.pc + 2) := rfl
@[simp] theorem State.advance_jmp : s.advance Opcode.jmp = s := rfl
@[simp] theorem State.advance_jne : s.advance Opcode.jne = s := rfl
@[simp] theorem State.advance_jeq : s.advance Opcode.jeq = s := rfl
@[simp] theorem State.advance_ldi : s.advance Opcode.ldi = s.setPc (s.pc + 3) := rfl
@[simp] theorem State.advance_mul : s.advance Opcode.mul = s.setPc (s.pc + 3) := rfl
@[simp] theorem State.advance_cmp : s.advance Opcode.cmp = s.setPc (s.pc + 3) := rfl

/-- The advance writes PC and nothing else. -/
theorem State.advance_eq_setPc : ∃ n, s.advance op = s.setPc n := by
  unfold State.advance
  split
  · exact ⟨s.pc, rfl⟩
  · exact ⟨_, rfl⟩

end

end Sys2Proof.Machine
end

