-- ==== Sys2Proof/Laws/Instructions.lean ====
section
/-! SUPPORT. Everything each meaning can do, one lemma per instruction: the outcomes in the order in which the rule tests
for them, each with its condition and the next state. Proofs about instructions cite these and unfold no meaning. -/

namespace Sys2Proof.Machine

variable {s : State}

/-- The fault of reading the `k`-th operand byte past the end of RAM. -/
abbrev operandFault (s : State) (k : Nat) : Fault := .outOfBounds .ram ((s.pc + k : Nat) : Int)

/-- HLT (R89). -/
theorem execHlt_eq (s : State) : execHlt s = .next ((s.setFl (flClearRunning s.fl)).setPc (s.pc + 1)) := rfl

/-- The unknown-opcode fallback (R83). -/
theorem unknownOpcode_eq (op : Byte) (s : State) :
    unknownOpcode op s = .next (((s.addReport op s.pc).setFl (flClearRunning s.fl)).advance op) := rfl

/-- PRN (R90). -/
theorem execPrn_cases (r : Nat) (s : State) :
    (256 ≤ s.pc + 1 ∧ execPrn r s = .next (s.takeFault (operandFault s 1))) ∨
    (s.pc + 1 < 256 ∧ 8 ≤ r ∧ execPrn r s = .next (s.takeFault (.outOfBounds .reg r))) ∨
    (s.pc + 1 < 256 ∧ r < 8 ∧ execPrn r s = .next ((s.emit (s.x r)).setPc (s.pc + 2))) := by
  by_cases hp : s.pc + 1 < 256
  · by_cases hr : r < 8
    · refine .inr (.inr ⟨hp, hr, (runHandler_ok (s' := s.emit (s.x r)) ?_).trans rfl⟩)
      simp only [EStateM.run_bind, fetchOperand_ok hp, readReg_ok hr, EStateM.run_modify]
    · refine .inr (.inl ⟨hp, by omega, runHandler_error ?_⟩)
      simp only [EStateM.run_bind, fetchOperand_ok hp, readReg_bad (Nat.le_of_not_lt hr)]
  · refine .inl ⟨by omega, runHandler_error ?_⟩
    simp only [EStateM.run_bind, fetchOperand_bad (Nat.le_of_not_lt hp)]

/-- PUSH (R92): the decrement before the register read. -/
theorem execPush_cases (r : Nat) (s : State) :
    (256 ≤ s.pc + 1 ∧ execPush r s = .next (s.takeFault (operandFault s 1))) ∨
    (s.pc + 1 < 256 ∧ s.sp = 0 ∧ execPush r s = .next (s.takeFault (.invalidByteValue .reg 7 (-1)))) ∨
    (s.pc + 1 < 256 ∧ s.sp ≠ 0 ∧ 8 ≤ r ∧
      execPush r s = .next ((s.setX 7 (s.sp - 1)).takeFault (.outOfBounds .reg r))) ∨
    (s.pc + 1 < 256 ∧ s.sp ≠ 0 ∧ r < 8 ∧
      execPush r s = .next (((s.setX 7 (s.sp - 1)).setByte (s.sp - 1).toNat
        ((s.setX 7 (s.sp - 1)).x r)).setPc (s.pc + 2))) := by
  by_cases hp : s.pc + 1 < 256
  · by_cases h0 : s.sp = 0
    · refine .inr (.inl ⟨hp, h0, runHandler_error ?_⟩)
      have e : Byte.int 0 - 1 = -1 := rfl
      simp only [EStateM.run_bind, fetchOperand_ok hp, readSp_run, h0, e]
      rw [writeSp_bad_value (by decide)]
    · by_cases hr : r < 8
      · refine .inr (.inr (.inr ⟨hp, h0, hr, (runHandler_ok (s' := (s.setX 7 (s.sp - 1)).setByte (s.sp - 1).toNat
          ((s.setX 7 (s.sp - 1)).x r)) ?_).trans rfl⟩))
        simp only [EStateM.run_bind, fetchOperand_ok hp, readSp_run, Byte.int_sub_one h0, writeSp_ok, readReg_ok hr,
          State.setX_sp, if_true, memWrite_byte]
      · refine .inr (.inr (.inl ⟨hp, h0, by omega, runHandler_error ?_⟩))
        simp only [EStateM.run_bind, fetchOperand_ok hp, readSp_run, Byte.int_sub_one h0, writeSp_ok,
          readReg_bad (Nat.le_of_not_lt hr)]
  · refine .inl ⟨by omega, runHandler_error ?_⟩
    simp only [EStateM.run_bind, fetchOperand_bad (Nat.le_of_not_lt hp)]

/-- The stack pointer POP increments: register 7 after the load of register `r`. -/
theorem setX_top_sp (r : Nat) (v : Byte) (s : State) : (s.setX r v).sp = if r = 7 then v else s.sp := by
  rw [State.setX_sp]; split <;> split <;> first | rfl | omega

/-- POP (R93): the load before the increment. -/
theorem execPop_cases (r : Nat) (s : State) (v : Byte) (hv : s.ram.peek s.sp.toNat = v) :
    (256 ≤ s.pc + 1 ∧ execPop r s = .next (s.takeFault (operandFault s 1))) ∨
    (s.pc + 1 < 256 ∧ 8 ≤ r ∧ execPop r s = .next (s.takeFault (.outOfBounds .reg r))) ∨
    (s.pc + 1 < 256 ∧ r < 8 ∧ (s.setX r v).sp = 255 ∧
      execPop r s = .next ((s.setX r v).takeFault (.invalidByteValue .reg 7 256))) ∨
    (s.pc + 1 < 256 ∧ r < 8 ∧ (s.setX r v).sp ≠ 255 ∧
      execPop r s = .next (((s.setX r v).setX 7 ((s.setX r v).sp + 1)).setPc (s.pc + 2))) := by
  by_cases hp : s.pc + 1 < 256
  · by_cases hr : r < 8
    · by_cases h : (s.setX r v).sp = 255
      · refine .inr (.inr (.inl ⟨hp, hr, h, runHandler_error ?_⟩))
        have e : Byte.int 255 + 1 = 256 := rfl
        simp only [EStateM.run_bind, fetchOperand_ok hp, readSp_run, memRead_byte, hv, writeReg_ok _ hr, h, e]
        rw [writeSp_bad_value (by decide)]
      · refine .inr (.inr (.inr ⟨hp, hr, h,
          (runHandler_ok (s' := (s.setX r v).setX 7 ((s.setX r v).sp + 1)) ?_).trans rfl⟩))
        simp only [EStateM.run_bind, fetchOperand_ok hp, readSp_run, memRead_byte, hv, writeReg_ok _ hr,
          Byte.int_add_one h, writeSp_ok]
    · refine .inr (.inl ⟨hp, by omega, runHandler_error ?_⟩)
      simp only [EStateM.run_bind, fetchOperand_ok hp, readSp_run, memRead_byte, writeReg_bad _ (Nat.le_of_not_lt hr)]
  · refine .inl ⟨by omega, runHandler_error ?_⟩
    simp only [EStateM.run_bind, fetchOperand_bad (Nat.le_of_not_lt hp)]

/-- JMP (R97). -/
theorem execJmp_cases (r : Nat) (s : State) :
    (256 ≤ s.pc + 1 ∧ execJmp r s = .next (s.takeFault (operandFault s 1))) ∨
    (s.pc + 1 < 256 ∧ 8 ≤ r ∧ execJmp r s = .next (s.takeFault (.outOfBounds .reg r))) ∨
    (s.pc + 1 < 256 ∧ r < 8 ∧ execJmp r s = .next (s.setPc (s.x r).toNat)) := by
  rcases jumpHandler_cases (s := s) r with ⟨h, e⟩ | ⟨h, h', e⟩ | ⟨h, h', e⟩
  · exact .inl ⟨h, runHandler_error e⟩
  · exact .inr (.inl ⟨h, h', runHandler_error e⟩)
  · exact .inr (.inr ⟨h, h', runHandler_ok e⟩)

/-- JNE taken is JMP (R98). -/
theorem execJne_taken {r : Nat} (h : s.equal = false) : execJne r s = execJmp r s := by
  unfold execJne execJmp
  rw [h]
  rcases jumpHandler_cases (s := s) r with ⟨_, e⟩ | ⟨_, _, e⟩ | ⟨_, _, e⟩ <;> simp [runHandler, e]
  rfl

/-- JNE not taken (R98). -/
theorem execJne_skip {r : Nat} (h : s.equal = true) : execJne r s = .next (s.setPc (s.pc + 2)) := by
  unfold execJne
  rw [h]
  rfl

/-- JEQ taken is JMP (R99). -/
theorem execJeq_taken {r : Nat} (h : s.equal = true) : execJeq r s = execJmp r s := by
  unfold execJeq execJmp
  rw [h]
  rcases jumpHandler_cases (s := s) r with ⟨_, e⟩ | ⟨_, _, e⟩ | ⟨_, _, e⟩ <;> simp [runHandler, e]
  rfl

/-- JEQ not taken (R99). -/
theorem execJeq_skip {r : Nat} (h : s.equal = false) : execJeq r s = .next (s.setPc (s.pc + 2)) := by
  unfold execJeq
  rw [h]
  rfl

/-- LDI (R102). -/
theorem execLdi_cases (r : Nat) (imm : Byte) (s : State) :
    (256 ≤ s.pc + 1 ∧ execLdi r imm s = .next (s.takeFault (operandFault s 1))) ∨
    (s.pc + 1 < 256 ∧ 256 ≤ s.pc + 2 ∧ execLdi r imm s = .next (s.takeFault (operandFault s 2))) ∨
    (s.pc + 2 < 256 ∧ 8 ≤ r ∧ execLdi r imm s = .next (s.takeFault (.outOfBounds .reg r))) ∨
    (s.pc + 2 < 256 ∧ r < 8 ∧ execLdi r imm s = .next ((s.setX r imm).setPc (s.pc + 3))) := by
  by_cases hp : s.pc + 1 < 256
  · by_cases hp2 : s.pc + 2 < 256
    · by_cases hr : r < 8
      · refine .inr (.inr (.inr ⟨hp2, hr, (runHandler_ok (s' := s.setX r imm) ?_).trans rfl⟩))
        simp only [EStateM.run_bind, fetchOperand_ok hp, fetchOperand_ok hp2, writeReg_ok _ hr]
      · refine .inr (.inr (.inl ⟨hp2, by omega, runHandler_error ?_⟩))
        simp only [EStateM.run_bind, fetchOperand_ok hp, fetchOperand_ok hp2, writeReg_bad _ (Nat.le_of_not_lt hr)]
    · refine .inr (.inl ⟨hp, by omega, runHandler_error ?_⟩)
      simp only [EStateM.run_bind, fetchOperand_ok hp, fetchOperand_bad (Nat.le_of_not_lt hp2)]
  · refine .inl ⟨by omega, runHandler_error ?_⟩
    simp only [EStateM.run_bind, fetchOperand_bad (Nat.le_of_not_lt hp)]

/-- MUL (R106): the exact product, or the fault of offering it to the register. -/
theorem execMul_cases (ra rb : Nat) (s : State) (p : Nat) (hq : (s.x ra).toNat * (s.x rb).toNat = p) :
    (256 ≤ s.pc + 1 ∧ execMul ra rb s = .next (s.takeFault (operandFault s 1))) ∨
    (s.pc + 1 < 256 ∧ 256 ≤ s.pc + 2 ∧ execMul ra rb s = .next (s.takeFault (operandFault s 2))) ∨
    (s.pc + 2 < 256 ∧ 8 ≤ ra ∧ execMul ra rb s = .next (s.takeFault (.outOfBounds .reg ra))) ∨
    (s.pc + 2 < 256 ∧ ra < 8 ∧ 8 ≤ rb ∧ execMul ra rb s = .next (s.takeFault (.outOfBounds .reg rb))) ∨
    (s.pc + 2 < 256 ∧ ra < 8 ∧ rb < 8 ∧ 255 < p ∧
      execMul ra rb s = .next (s.takeFault (.invalidByteValue .reg ra (p : Int)))) ∨
    (s.pc + 2 < 256 ∧ ra < 8 ∧ rb < 8 ∧ p ≤ 255 ∧
      execMul ra rb s = .next ((s.setX ra (s.x ra * s.x rb)).setPc (s.pc + 3))) := by
  by_cases hp : s.pc + 1 < 256
  · by_cases hp2 : s.pc + 2 < 256
    · by_cases ha : ra < 8
      · by_cases hb : rb < 8
        · by_cases h : p ≤ 255
          · refine .inr (.inr (.inr (.inr (.inr ⟨hp2, ha, hb, h,
              (runHandler_ok (s' := s.setX ra (s.x ra * s.x rb)) ?_).trans rfl⟩))))
            simp only [EStateM.run_bind, fetchAluOperands_ok hp2, readReg_ok ha, readReg_ok hb,
              Byte.int_mul (hq ▸ h), writeReg_ok _ ha]
          · refine .inr (.inr (.inr (.inr (.inl ⟨hp2, ha, hb, by omega, runHandler_error ?_⟩))))
            have e : Byte.int (s.x ra) * Byte.int (s.x rb) = (p : Int) :=
              (Int.natCast_mul _ _).symm.trans (congrArg _ hq)
            simp only [EStateM.run_bind, fetchAluOperands_ok hp2, readReg_ok ha, readReg_ok hb, e]
            rw [writeReg_bad_value ha (by omega)]
        · refine .inr (.inr (.inr (.inl ⟨hp2, ha, by omega, runHandler_error ?_⟩)))
          simp only [EStateM.run_bind, fetchAluOperands_ok hp2, readReg_ok ha, readReg_bad (Nat.le_of_not_lt hb)]
      · refine .inr (.inr (.inl ⟨hp2, by omega, runHandler_error ?_⟩))
        simp only [EStateM.run_bind, fetchAluOperands_ok hp2, readReg_bad (Nat.le_of_not_lt ha)]
    · refine .inr (.inl ⟨hp, by omega, runHandler_error ?_⟩)
      simp only [EStateM.run_bind, fetchAluOperands_bad_second hp (Nat.le_of_not_lt hp2)]
  · refine .inl ⟨by omega, runHandler_error ?_⟩
    simp only [EStateM.run_bind, fetchAluOperands_bad_first (Nat.le_of_not_lt hp)]

/-- CMP (R107). -/
theorem execCmp_cases (ra rb : Nat) (s : State) :
    (256 ≤ s.pc + 1 ∧ execCmp ra rb s = .next (s.takeFault (operandFault s 1))) ∨
    (s.pc + 1 < 256 ∧ 256 ≤ s.pc + 2 ∧ execCmp ra rb s = .next (s.takeFault (operandFault s 2))) ∨
    (s.pc + 2 < 256 ∧ 8 ≤ ra ∧ execCmp ra rb s = .next (s.takeFault (.outOfBounds .reg ra))) ∨
    (s.pc + 2 < 256 ∧ ra < 8 ∧ 8 ≤ rb ∧ execCmp ra rb s = .next (s.takeFault (.outOfBounds .reg rb))) ∨
    (s.pc + 2 < 256 ∧ ra < 8 ∧ rb < 8 ∧
      execCmp ra rb s = .next ((s.setFl (flCompare s.fl (s.x ra) (s.x rb))).setPc (s.pc + 3))) := by
  by_cases hp : s.pc + 1 < 256
  · by_cases hp2 : s.pc + 2 < 256
    · by_cases ha : ra < 8
      · by_cases hb : rb < 8
        · refine .inr (.inr (.inr (.inr ⟨hp2, ha, hb,
            (runHandler_ok (s' := s.setFl (flCompare s.fl (s.x ra) (s.x rb))) ?_).trans rfl⟩)))
          simp only [EStateM.run_bind, fetchAluOperands_ok hp2, readReg_ok ha, readReg_ok hb, EStateM.run_modify]
        · refine .inr (.inr (.inr (.inl ⟨hp2, ha, by omega, runHandler_error ?_⟩)))
          simp only [EStateM.run_bind, fetchAluOperands_ok hp2, readReg_ok ha, readReg_bad (Nat.le_of_not_lt hb)]
      · refine .inr (.inr (.inl ⟨hp2, by omega, runHandler_error ?_⟩))
        simp only [EStateM.run_bind, fetchAluOperands_ok hp2, readReg_bad (Nat.le_of_not_lt ha)]
    · refine .inr (.inl ⟨hp, by omega, runHandler_error ?_⟩)
      simp only [EStateM.run_bind, fetchAluOperands_bad_second hp (Nat.le_of_not_lt hp2)]
  · refine .inl ⟨by omega, runHandler_error ?_⟩
    simp only [EStateM.run_bind, fetchAluOperands_bad_first (Nat.le_of_not_lt hp)]

end Sys2Proof.Machine
end

