-- ==== Sys2Proof/Laws/PerInstr.lean ====
section
/-! SUPPORT. What holds of every instruction as syntax, by one lemma per constructor: the fields the decoder takes from
the opcode byte agree with the instruction's own shape (R62, R66). -/

namespace Sys2Proof.Laws.OpcodeFieldsAgree

/-- The two instructions of the ALU table (R66). -/
def isAlu : Instr → Bool
  | .mul _ _ | .cmp _ _ => true
  | .hlt | .push _ | .pop _ | .prn _ | .jmp _ | .jne _ | .jeq _ | .ldi _ _ => false

/-- The three instructions that write PC themselves (R96). -/
def isBranch : Instr → Bool
  | .jmp _ | .jne _ | .jeq _ => true
  | .hlt | .push _ | .pop _ | .prn _ | .ldi _ _ | .mul _ _ | .cmp _ _ => false

/-- The opcode is mapped, counts the instruction's operand bytes in bits 7 and 6, is in the ALU table by bit 5 and leaves
PC to its handler by bit 4 (R62). -/
def Statement (i : Instr) : Prop :=
  (dispatch i.opcode).isSome = true ∧ operandCount i.opcode = i.operandBytes.length ∧ isAluOp i.opcode = isAlu i ∧
    setsPc i.opcode = isBranch i

theorem hlt : Statement .hlt :=
  ⟨congrArg Option.isSome dispatch_hlt, operandCount_hlt, isAluOp_hlt, setsPc_hlt⟩
theorem push (r : Nat) : Statement (.push r) :=
  ⟨congrArg Option.isSome dispatch_push, operandCount_push, isAluOp_push, setsPc_push⟩
theorem pop (r : Nat) : Statement (.pop r) :=
  ⟨congrArg Option.isSome dispatch_pop, operandCount_pop, isAluOp_pop, setsPc_pop⟩
theorem prn (r : Nat) : Statement (.prn r) :=
  ⟨congrArg Option.isSome dispatch_prn, operandCount_prn, isAluOp_prn, setsPc_prn⟩
theorem jmp (r : Nat) : Statement (.jmp r) :=
  ⟨congrArg Option.isSome dispatch_jmp, operandCount_jmp, isAluOp_jmp, setsPc_jmp⟩
theorem jne (r : Nat) : Statement (.jne r) :=
  ⟨congrArg Option.isSome dispatch_jne, operandCount_jne, isAluOp_jne, setsPc_jne⟩
theorem jeq (r : Nat) : Statement (.jeq r) :=
  ⟨congrArg Option.isSome dispatch_jeq, operandCount_jeq, isAluOp_jeq, setsPc_jeq⟩
theorem ldi (r : Nat) (imm : Byte) : Statement (.ldi r imm) :=
  ⟨congrArg Option.isSome dispatch_ldi, operandCount_ldi, isAluOp_ldi, setsPc_ldi⟩
theorem mul (ra rb : Nat) : Statement (.mul ra rb) :=
  ⟨congrArg Option.isSome dispatch_mul, operandCount_mul, isAluOp_mul, setsPc_mul⟩
theorem cmp (ra rb : Nat) : Statement (.cmp ra rb) :=
  ⟨congrArg Option.isSome dispatch_cmp, operandCount_cmp, isAluOp_cmp, setsPc_cmp⟩

end Sys2Proof.Laws.OpcodeFieldsAgree
end

