-- ==== Sys2Proof/Laws/Run.lean ====
section
/-! SUPPORT. The step and runs of it: when a step is a cycle, what a cycle can do, one more step of a run, and what the
host's placing of an instruction makes the next step do. -/

namespace Sys2Proof.Machine

/-! ### Status (R27) -/

theorem status_running {s : State} : s.status = .running ↔ s.running = true ∧ s.fault = none := by
  unfold State.status; cases s.fault <;> cases s.running <;> simp

theorem status_halted {s : State} : s.status = .halted ↔ s.running = false ∧ s.fault = none := by
  unfold State.status; cases s.fault <;> cases s.running <;> simp

theorem status_faulted {s : State} : s.status = .faulted ↔ s.fault ≠ none := by
  unfold State.status; cases s.fault <;> cases s.running <;> simp

/-! ### The step -/

theorem step_of_running {s : State} (h : s.status = .running) : step s = cycle s := by simp only [step, runLoop, h]

theorem step_of_not_running {s : State} (h : s.status ≠ .running) : step s = .next s := by
  unfold step runLoop; cases e : s.status <;> simp_all

/-- Everything a cycle can do (R77, R78): fault at the fetch, run the instruction the bytes at PC spell, or report. -/
theorem cycle_cases (s : State) :
    (256 ≤ s.pc ∧ cycle s = .next (s.takeFault (.outOfBounds .ram s.pc))) ∨
    (∃ i, s.pc < 256 ∧ assemble (s.ram.peek s.pc) (s.ram.peek (s.pc + 1)) (s.ram.peek (s.pc + 2)) = some i ∧
      cycle s = exec i (s.setIr (s.ram.peek s.pc))) ∨
    (s.pc < 256 ∧ dispatch (s.ram.peek s.pc) = none ∧
      cycle s = unknownOpcode (s.ram.peek s.pc) (s.setIr (s.ram.peek s.pc))) := by
  by_cases h : s.pc < 256
  · have e : fetchOpcode.run s = .ok (s.ram.peek s.pc) (s.setIr (s.ram.peek s.pc)) := by
      simp only [fetchOpcode, EStateM.run_bind, EStateM.run_get, memRead_ok h, EStateM.run_modify, EStateM.run_pure]
    have d : decodeAt (s.ram.peek s.pc) (s.setIr (s.ram.peek s.pc)) =
        assemble (s.ram.peek s.pc) (s.ram.peek (s.pc + 1)) (s.ram.peek (s.pc + 2)) := rfl
    cases a : assemble (s.ram.peek s.pc) (s.ram.peek (s.pc + 1)) (s.ram.peek (s.pc + 2)) with
    | some i => exact .inr (.inl ⟨i, h, rfl, by simp only [cycle, e, d, a]⟩)
    | none =>
      refine .inr (.inr ⟨h, ?_, by simp only [cycle, e, d, a]⟩)
      simpa only [assemble, Option.map_eq_none_iff] using a
  · have e : fetchOpcode.run s = .error (.outOfBounds .ram s.pc) s := by
      simp only [fetchOpcode, EStateM.run_bind, EStateM.run_get, memRead_bad (Nat.le_of_not_lt h)]
    exact .inl ⟨by omega, by simp only [cycle, e]⟩

/-! ### Runs -/

theorem run_zero (s : State) : Sys2Proof.core.run 0 s = .next s := rfl

theorem host_run_succ (M : Host.Core) (n : Nat) (s : M.State) :
    M.run (n + 1) s =
      (match M.step s with
        | .next s' => M.run n s'
        | .fault r => .fault r
        | .refused r => .refused r) := rfl

theorem run_succ (n : Nat) {s t : State} (h : step s = .next t) :
    Sys2Proof.core.run (n + 1) s = Sys2Proof.core.run n t := by
  have h' : Sys2Proof.core.step s = .next t := h
  refine (host_run_succ Sys2Proof.core n s).trans ?_
  rw [h']

/-- A machine that is not RUNNING stays as it is (R75). -/
theorem run_of_not_running {s : State} (h : s.status ≠ .running) (n : Nat) : Sys2Proof.core.run n s = .next s := by
  induction n with
  | zero => rfl
  | succ n ih => rw [run_succ n (step_of_not_running h)]; exact ih

/-! ### The host's placing of an instruction -/

/-- The state `withFetchWord` makes is RUNNING, with room for three bytes at PC. -/
theorem withFetchWord_ready (s : State) (nbits w : Nat) :
    (s.withFetchWord nbits w).status = .running ∧ (s.withFetchWord nbits w).pc + 3 ≤ 256 := by
  refine ⟨status_running.mpr ⟨?_, rfl⟩, ?_⟩
  · show (s.fl ||| 0x80).getLsbD 7 = true
    simp
  · show (if s.pc + 3 ≤ Config.memSize then s.pc else Config.loadBase) + 3 ≤ 256
    split <;> simp_all [Config.memSize, Config.loadBase]

end Sys2Proof.Machine
end

