-- ==== Sys2Proof/Tests/Slice0.lean ====
section
/-! SUPPORT. The model's own tests. The expected values come from the spec: the encodings of 30_encoding.md and
opcode_table.json, the vectors of 95_test_vectors.md (named V-…) and the source's examples (S<n>); a last part meets the
hypotheses of each statement in Obligations.lean on a concrete state. -/

namespace Sys2Proof.Tests

open Sys2Proof.Machine

/-- The reset state after run start: RUNNING, PC 0. -/
def started : State := State.reset.setFl 0x80

/-- A RUNNING state with some bytes at PC, as the vectors of 95_test_vectors.md give them. -/
def placed (pc : Nat) (bytes : List Byte) : State := (started.setPc pc).setRam (placeBytes pc bytes ⟨[]⟩)

/-- The state a step leaves. -/
def after (s : State) : State :=
  match step s with
  | .next t => t
  | .fault _ => s
  | .refused _ => s

/-- The state a meaning leaves. -/
def afterExec (i : Instr) (s : State) : State :=
  match exec i s with
  | .next t => t
  | .fault _ => s
  | .refused _ => s

/-! ### WellFormed refuses what does not fit an operand byte (R57, R63) -/

theorem test_wf_smoke_push : (Instr.push 256).wf = false ∧ (Instr.push 255).wf = true := by decide
theorem test_wf_smoke_pop : (Instr.pop 256).wf = false ∧ (Instr.pop 255).wf = true := by decide
theorem test_wf_smoke_prn : (Instr.prn 256).wf = false ∧ (Instr.prn 255).wf = true := by decide
theorem test_wf_smoke_jmp : (Instr.jmp 256).wf = false ∧ (Instr.jmp 255).wf = true := by decide
theorem test_wf_smoke_jne : (Instr.jne 256).wf = false ∧ (Instr.jne 255).wf = true := by decide
theorem test_wf_smoke_jeq : (Instr.jeq 256).wf = false ∧ (Instr.jeq 255).wf = true := by decide
theorem test_wf_smoke_ldi : (Instr.ldi 256 0).wf = false ∧ (Instr.ldi 255 0xFF).wf = true := by decide
theorem test_wf_smoke_mul :
    (Instr.mul 256 0).wf = false ∧ (Instr.mul 0 256).wf = false ∧ (Instr.mul 255 255).wf = true := by decide
theorem test_wf_smoke_cmp :
    (Instr.cmp 256 0).wf = false ∧ (Instr.cmp 0 256).wf = false ∧ (Instr.cmp 255 255).wf = true := by decide

/-! ### Decoding: words written out from the "encoding" column of opcode_table.json, first byte rightmost -/

theorem test_decode_hlt : decodeTableWord 8 0b00000001 = some .hlt := by decide
theorem test_decode_push : decodeTableWord 16 0b00000101_01000101 = some (.push 5) := by decide
theorem test_decode_pop : decodeTableWord 16 0b10000001_01000110 = some (.pop 129) := by decide
theorem test_decode_prn : decodeTableWord 16 0b00000010_01000111 = some (.prn 2) := by decide
theorem test_decode_jmp : decodeTableWord 16 0b00000011_01010100 = some (.jmp 3) := by decide
theorem test_decode_jne : decodeTableWord 16 0b00000100_01010101 = some (.jne 4) := by decide
theorem test_decode_jeq : decodeTableWord 16 0b00000110_01010110 = some (.jeq 6) := by decide
theorem test_decode_ldi : decodeTableWord 24 0b11110000_00000001_10000010 = some (.ldi 1 0xF0) := by decide
theorem test_decode_mul : decodeTableWord 24 0b00000010_00000001_10100010 = some (.mul 1 2) := by decide
theorem test_decode_cmp : decodeTableWord 24 0b00000111_00000000_10100111 = some (.cmp 0 7) := by decide

/-- Operand bytes the word does not hold are zeros. -/
theorem test_decode_short_word : decodeTableWord 8 0x82 = some (.ldi 0 0) := by decide

/-- The unmapped neighbours that R68 names, by name. -/
theorem test_decode_unmapped :
    decode [0x00] = .error (.unknownOpcode 0x00) ∧ decode [0x11] = .error (.unknownOpcode 0x11) ∧
    decode [0xA3, 0, 0] = .error (.unknownOpcode 0xA3) ∧ decode [0x65, 0] = .error (.unknownOpcode 0x65) ∧
    decode [0xFF] = .error (.unknownOpcode 0xFF) := ⟨rfl, rfl, rfl, rfl, rfl⟩

theorem test_decode_rejects_by_name :
    decode [] = .error .noBytes ∧ decode [0x45] = .error (.truncated 0x45) ∧
    decode [0xA2, 1] = .error (.truncated 0xA2) := ⟨rfl, rfl, rfl⟩

/-- V-DEC-21 and V-DEC-24: fields of unmapped bytes. -/
theorem test_decoder_fields :
    (operandCount 0xB0 = 2 ∧ isAluOp 0xB0 = true ∧ setsPc 0xB0 = true ∧ instructionId 0xB0 = 0) ∧
    (operandCount 0xFF = 3 ∧ isAluOp 0xFF = true ∧ setsPc 0xFF = true ∧ instructionId 0xFF = 15) := by decide

/-- P1's bytes of MUL R0,R1 and LDI R1,9. -/
theorem test_encode : encode (.mul 0 1) = [0xA2, 0, 1] ∧ encode (.ldi 1 9) = [0x82, 1, 9] := by decide

/-! ### One step of each instruction (vectors of 95_test_vectors.md) -/

/-- V-HLT-2: HLT at 255 reads no operand and leaves PC at 256. -/
theorem test_hlt_at_top :
    (after (placed 0xFF [0x01])).pc = 256 ∧ (after (placed 0xFF [0x01])).fl = 0x00 ∧
    (after (placed 0xFF [0x01])).status = .halted := by decide

/-- V-HLT-3: EQUAL survives the halt. -/
theorem test_hlt_keeps_equal :
    (after ((placed 0x10 [0x01]).setFl 0x81)).fl = 0x01 ∧ (after ((placed 0x10 [0x01]).setFl 0x81)).pc = 0x11 := by
  decide

/-- V-PRN-2: PRN R7 emits 244. -/
theorem test_prn_sp : (after (placed 0 [0x47, 7])).out = [244] ∧ (after (placed 0 [0x47, 7])).pc = 2 := by decide

/-- V-PRN-6: the register byte is not masked. -/
theorem test_prn_unmasked :
    (after (placed 0 [0x47, 0xFF])).fault = some (.outOfBounds .reg 255) ∧ (after (placed 0 [0x47, 0xFF])).out = [] := by
  decide

/-- V-PUSH-2: PUSH R7 stores the decremented SP. -/
theorem test_push_sp :
    (after (placed 0 [0x45, 7])).sp = 0xF3 ∧ (after (placed 0 [0x45, 7])).ram.peek 0xF3 = 0xF3 := by decide

/-- V-PUSH-5: a bad register number faults after the decrement. -/
theorem test_push_bad_register :
    (after (placed 0 [0x45, 8])).fault = some (.outOfBounds .reg 8) ∧ (after (placed 0 [0x45, 8])).sp = 0xF3 ∧
    (after (placed 0 [0x45, 8])).pc = 0 := by decide

/-- V-POP-2: POP R7 ends one above the popped byte. -/
theorem test_pop_sp : (after (((placed 0 [0x46, 7]).setByte 0xF3 0x20).setX 7 0xF3)).sp = 0x21 := by decide

/-- V-POP-4: the increment past 255 faults with the register already loaded. -/
theorem test_pop_increment_fault :
    (after (((placed 0 [0x46, 0]).setByte 0xFF 0x5A).setX 7 0xFF)).fault = some (.invalidByteValue .reg 7 256) ∧
    (after (((placed 0 [0x46, 0]).setByte 0xFF 0x5A).setX 7 0xFF)).x 0 = 0x5A := by decide

/-- V-JMP-1. -/
theorem test_jmp : (after ((placed 0x14 [0x54, 3]).setX 3 0x0C)).pc = 0x0C := by decide

/-- V-JMP-3: the operand byte would lie at 256. -/
theorem test_jmp_truncated :
    (after (placed 0xFF [0x54])).fault = some (.outOfBounds .ram 256) ∧ (after (placed 0xFF [0x54])).pc = 0xFF := by
  decide

/-- V-JNE-1: LESS set, EQUAL clear, taken. -/
theorem test_jne_taken : (after (((placed 0x14 [0x55, 3]).setX 3 0x0C).setFl 0x84)).pc = 0x0C := by decide

/-- V-JNE-4: not taken at 255 reads no operand. -/
theorem test_jne_skip_at_top :
    (after ((placed 0xFF [0x55]).setFl 0x81)).pc = 257 ∧ (after ((placed 0xFF [0x55]).setFl 0x81)).fault = none := by
  decide

/-- V-JEQ-1. -/
theorem test_jeq_taken : (after (((placed 9 [0x56, 2]).setX 2 0x20).setFl 0x81)).pc = 0x20 := by decide

/-- V-JEQ-7: not taken, the bad register byte is never used. -/
theorem test_jeq_skip :
    (after ((placed 0 [0x56, 9]).setFl 0x84)).pc = 2 ∧ (after ((placed 0 [0x56, 9]).setFl 0x84)).fault = none := by
  decide

/-- V-LDI-6: the immediate is unsigned 255. -/
theorem test_ldi : (after (placed 0 [0x82, 1, 0xFF])).x 1 = 0xFF ∧ (after (placed 0 [0x82, 1, 0xFF])).pc = 3 := by
  decide

/-- V-LDI-4: the second operand byte would lie at 256. -/
theorem test_ldi_truncated :
    (after (placed 0xFE [0x82, 0])).fault = some (.outOfBounds .ram 256) ∧ (after (placed 0xFE [0x82, 0])).pc = 0xFE := by
  decide

/-- V-MUL-1 (the source's S4): 8 times 9. -/
theorem test_mul :
    (after (((placed 6 [0xA2, 0, 1]).setX 0 8).setX 1 9)).x 0 = 72 ∧
    (after (((placed 6 [0xA2, 0, 1]).setX 0 8).setX 1 9)).pc = 9 := by decide

/-- V-MUL-3 (S9): 16 times 16 faults, the register keeps 16. -/
theorem test_mul_overflow :
    (after (((placed 0 [0xA2, 0, 1]).setX 0 16).setX 1 16)).fault = some (.invalidByteValue .reg 0 256) ∧
    (after (((placed 0 [0xA2, 0, 1]).setX 0 16).setX 1 16)).x 0 = 16 := by decide

/-- V-CMP-12: unsigned, 128 is greater than 127. -/
theorem test_cmp_unsigned : (after (((placed 0 [0xA7, 0, 1]).setX 0 0x80).setX 1 0x7F)).fl = 0x82 := by decide

/-- V-CMP-6 (S6): the old EQUAL is replaced by LESS. -/
theorem test_cmp_replaces :
    (after ((((placed 0 [0xA7, 0, 1]).setX 0 1).setX 1 2).setFl 0x81)).fl = 0x84 := by decide

/-! ### The cycle and the external events -/

/-- V-UNK-4: an unmapped ALU-flagged byte at 254 is reported, reads no operand, and advances by its own fields. -/
theorem test_unmapped_reads_no_operand :
    (after (placed 0xFE [0xA0])).diag = [⟨0xA0, 0xFE⟩] ∧ (after (placed 0xFE [0xA0])).pc = 257 ∧
    (after (placed 0xFE [0xA0])).status = .halted := by decide

/-- V-UNK-2: with bit 4 set PC does not move. -/
theorem test_unmapped_sets_pc :
    (after (placed 0x10 [0xFF])).diag = [⟨0xFF, 0x10⟩] ∧ (after (placed 0x10 [0xFF])).pc = 0x10 := by decide

/-- V-FETCH-2: a fetch at 259 faults and keeps IR. -/
theorem test_fetch_past_end :
    (after ((placed 259 []).setIr 0x82)).fault = some (.outOfBounds .ram 259) ∧
    (after ((placed 259 []).setIr 0x82)).ir = 0x82 := by decide

/-- V-LOAD-3: the loader's error; the bytes before it stay. -/
theorem test_load_error :
    (State.reset.load [0x82, 300, 8]).2 = some (.invalidByteValue .ram 1 300) ∧
    (State.reset.load [0x82, 300, 8]).1.ram.cells = [(0, 0x82)] := by decide

/-- V-RUN-1: run start sets bit 7 only. -/
theorem test_run_start : (State.reset.setFl 0x01).runStart.fl = 0x81 := by decide

/-- R29: "0 prints as `0` and 72 as `72`"; P1's sink shows the line `72`. -/
theorem test_sink_text : sinkText [0, 72, 244] = "0\n72\n244\n".toList := by decide

/-- The host's placing: from reset, the very next step runs the placed instruction (LDI R1,9). -/
theorem test_with_fetch_word :
    (after (State.reset.withFetchWord 24 0x090182)).x 1 = 9 ∧ (after (State.reset.withFetchWord 24 0x090182)).pc = 3 ∧
    (after ((State.reset.setPc 259).withFetchWord 24 0x090182)).x 1 = 9 := by decide

/-- V-GM-8: the address is tested before the value. -/
theorem test_write_order : State.reset.ram.write 256 256 = .error (.outOfBounds .ram 256) := rfl

/-! ### Witnesses: for each statement with hypotheses, a state and operands that meet them, clause by clause -/

/-- A state with a fault latched. -/
def broken : State := started.setFault (some (.outOfBounds .ram 256))

theorem witness_GuardedReadContract :
    ((-1 : Int) < 0) ∧ ((Store.reg.size : Int) ≤ 8) ∧ (0 ≤ (255 : Int) ∧ (255 : Int) < Store.ram.size) := by decide

theorem witness_GuardedStoreContract :
    Store.ram.valid 255 ∧ Store.ram.valid 0 ∧ Store.reg.valid 7 ∧ ¬ Store.reg.valid 8 ∧ ¬ Store.ram.valid (-1) ∧
    (0 ≤ (0 : Int) ∧ (0 : Int) ≤ 255) ∧ ((-1 : Int) < 0) ∧ (255 : Int) < 256 := by decide

theorem witness_GuardedStoreContract_failed_writes :
    (memWrite 256 0).run started = .error (.outOfBounds .ram 256) started ∧
    (writeReg 7 256).run started = .error (.invalidByteValue .reg 7 256) started := ⟨rfl, rfl⟩

theorem witness_CanonicalContentsAreEqualData :
    State.reset.reg.wf = true ∧ (State.reset.reg.poke 0 1).wf = true ∧
    ∀ n : Int, Store.reg.valid n → State.reset.reg.read n = ((State.reset.reg.poke 0 1).poke 0 0).read n :=
  ⟨by decide, by decide, fun _ _ => rfl⟩

theorem witness_ResetLeavesTheStatedValues : 0 ≤ (255 : Int) ∧ (255 : Int) < 256 ∧ 6 < 7 := by decide

theorem witness_StepKeepsInvariant :
    (placed 0xFF [0xE0]).Inv ∧ step (placed 0xFF [0xE0]) = .next (after (placed 0xFF [0xE0])) ∧
    (after (placed 0xFF [0xE0])).pc = 259 := ⟨by decide, rfl, by decide⟩

theorem witness_ReachableStatesMeetInvariant : Reachable (State.reset.take .runStart) :=
  .event .runStart .reset

theorem witness_StepRunsDecodedInstruction :
    (placed 0xFD [0x82, 7, 9]).status = .running ∧
    decode (placed 0xFD [0x82, 7, 9]).bytesFrom = .ok (.ldi 7 9, []) ∧
    (placed 0xFE [0x82, 7]).status = .running ∧ (placed 0xFE [0x82, 7]).pc < 256 ∧
    assemble ((placed 0xFE [0x82, 7]).ram.peek 0xFE) ((placed 0xFE [0x82, 7]).ram.peek 0xFF)
      ((placed 0xFE [0x82, 7]).ram.peek 0x100) = some (.ldi 7 0) := ⟨by decide, rfl, by decide, by decide, rfl⟩

/-- V-PRN-5, V-LDI-4, V-JNE-4 and V-JEQ-5: one state for each clause, at each boundary address. -/
theorem witness_StepWithOperandsPastRam :
    ((placed 0xFF [0x47]).status = .running ∧ (placed 0xFF [0x47]).ram.read 0xFF = .ok 0x47 ∧
      (dispatch 0x47).isSome = true ∧ 256 ≤ (placed 0xFF [0x47]).pc + operandCount 0x47) ∧
    ((placed 0xFE [0x82, 0]).status = .running ∧ (placed 0xFE [0x82, 0]).ram.read 0xFE = .ok 0x82 ∧
      (dispatch 0x82).isSome = true ∧ 256 ≤ (placed 0xFE [0x82, 0]).pc + operandCount 0x82) ∧
    (((placed 0xFF [0x55]).setFl 0x81).status = .running ∧ ((placed 0xFF [0x55]).setFl 0x81).ram.read 0xFF = .ok 0x55 ∧
      (dispatch 0x55).isSome = true ∧ 256 ≤ (placed 0xFF [0x55]).pc + operandCount 0x55 ∧
      ((placed 0xFF [0x55]).setFl 0x81).fl.getLsbD 0 = true) ∧
    ((placed 0xFF [0x56]).status = .running ∧ (placed 0xFF [0x56]).ram.read 0xFF = .ok 0x56 ∧
      (dispatch 0x56).isSome = true ∧ 256 ≤ (placed 0xFF [0x56]).pc + operandCount 0x56 ∧
      (placed 0xFF [0x56]).fl.getLsbD 0 = false) :=
  ⟨⟨by decide, rfl, by decide, by decide⟩, ⟨by decide, rfl, by decide, by decide⟩,
    ⟨by decide, rfl, by decide, by decide, by decide⟩, ⟨by decide, rfl, by decide, by decide, by decide⟩⟩

theorem witness_UnmappedOpcodeReportsAndHalts :
    (placed 0xFF [0xE0]).status = .running ∧ (placed 0xFF [0xE0]).ram.read (placed 0xFF [0xE0]).pc = .ok 0xE0 ∧
    dispatch 0xE0 = none ∧ (placed 0 [0x10]).status = .running ∧
    (placed 0 [0x10]).ram.read (placed 0 [0x10]).pc = .ok 0x10 ∧ dispatch 0x10 = none :=
  ⟨by decide, rfl, rfl, by decide, rfl, rfl⟩

theorem witness_FetchPastEndFaults : (placed 256 []).status = .running ∧ 256 ≤ (placed 256 []).pc := by decide

theorem witness_CycleOnlyWhileRunning :
    (started.fl.getLsbD 7 = true ∧ started.fault = none) ∧ ¬ (broken.fl.getLsbD 7 = true ∧ broken.fault = none) ∧
    ¬ (State.reset.fl.getLsbD 7 = true ∧ State.reset.fault = none) := by decide

theorem witness_RaiseEndsTheInstruction :
    (readReg 8).run started = .error (.outOfBounds .reg 8) started ∧
    (memRead 256).run started = .error (.outOfBounds .ram 256) started ∧
    (writeReg 8 0).run started = .error (.outOfBounds .reg 8) started ∧
    (memWrite 0 256).run started = .error (.invalidByteValue .ram 0 256) started := ⟨rfl, rfl, rfl, rfl⟩

theorem witness_OperandsPastRamAreNeverUsed :
    assemble 0x82 1 2 = some (.ldi 1 2) ∧ assemble 0x82 1 3 = some (.ldi 1 3) ∧
    ((started.setPc 254).pc + 1 < 256 → (1 : Byte) = 1) ∧ ((started.setPc 254).pc + 2 < 256 → (2 : Byte) = 3) ∧
    ((started.setPc 255).pc + 1 < 256 → (1 : Byte) = 4) := ⟨rfl, rfl, by decide, by decide, by decide⟩

theorem witness_PrnAppendsRegisterValue : (started.setPc 254).pc + 1 < 256 ∧ 7 < 8 := by decide

theorem witness_PushStoresAtDecrementedSp :
    ((started.setPc 254).setX 7 1).pc + 1 < 256 ∧ ((started.setPc 254).setX 7 1).sp ≠ 0 ∧ 7 < 8 := by decide

theorem witness_PopLoadsTopAndRaisesSp :
    ((started.setPc 254).setX 7 254).pc + 1 < 256 ∧ 6 < 8 ∧ 6 ≠ 7 ∧ ((started.setPc 254).setX 7 254).sp ≠ 255 := by
  decide

theorem witness_PopOfSpEndsOneAboveTheByte :
    ((started.setPc 254).setByte 0xF4 254).pc + 1 < 256 ∧
    ((started.setPc 254).setByte 0xF4 254).ram.read ((started.setPc 254).setByte 0xF4 254).sp.int = .ok 254 ∧
    (254 : Byte) ≠ 255 := ⟨by decide, rfl, by decide⟩

theorem witness_PushThenPopCopiesAndRestoresSp :
    ((started.setPc 252).setX 7 1).pc + 3 < 256 ∧ ((started.setPc 252).setX 7 1).sp ≠ 0 ∧ 6 < 7 ∧ 0 < 7 := by decide

theorem witness_JmpSetsPcToRegister : (started.setPc 254).pc + 1 < 256 ∧ 7 < 8 := by decide

theorem witness_JneJumpsWhenEqualClear :
    ((started.setPc 254).fl.getLsbD 0 = false ∧ (started.setPc 254).pc + 1 < 256 ∧ 7 < 8) ∧
    ((started.setPc 255).setFl 0x81).fl.getLsbD 0 = true := by decide

theorem witness_JeqJumpsWhenEqualSet :
    (((started.setPc 254).setFl 0x81).fl.getLsbD 0 = true ∧ ((started.setPc 254).setFl 0x81).pc + 1 < 256 ∧ 7 < 8) ∧
    (started.setPc 255).fl.getLsbD 0 = false := by decide

/-- V-JMP-4. -/
theorem witness_JumpToItselfNeverEnds :
    ((placed 0x20 [0x54, 0]).setX 0 0x20).status = .running ∧
    ((placed 0x20 [0x54, 0]).setX 0 0x20).ram.read 0x20 = .ok 0x54 ∧
    ((placed 0x20 [0x54, 0]).setX 0 0x20).ram.read 0x21 = .ok 0 ∧ (0 : Byte).toNat < 8 ∧
    (((placed 0x20 [0x54, 0]).setX 0 0x20).x 0).toNat = ((placed 0x20 [0x54, 0]).setX 0 0x20).pc :=
  ⟨by decide, rfl, rfl, by decide, by decide⟩

theorem witness_LdiLoadsImmediate : (started.setPc 253).pc + 2 < 256 ∧ 7 < 8 := by decide

theorem witness_MulStoresExactProduct :
    (((started.setPc 253).setX 0 15).setX 7 17).pc + 2 < 256 ∧ 0 < 8 ∧ 7 < 8 ∧
    ((((started.setPc 253).setX 0 15).setX 7 17).x 0).toNat * ((((started.setPc 253).setX 0 15).setX 7 17).x 7).toNat
      ≤ 255 := by decide

theorem witness_MulOverflowFaults :
    ((started.setPc 253).setX 7 16).fault = none ∧ ((started.setPc 253).setX 7 16).pc + 2 < 256 ∧ 7 < 8 ∧
    255 < (((started.setPc 253).setX 7 16).x 7).toNat * (((started.setPc 253).setX 7 16).x 7).toNat := by decide

theorem witness_CmpSetsExactlyOneFlag : (started.setPc 253).pc + 2 < 256 ∧ 0 < 8 ∧ 7 < 8 := by decide

theorem witness_TakingAFaultOnlyLatches :
    started.fault = none ∧ broken.fault = some (.outOfBounds .ram 256) := by decide

theorem witness_FaultedIsTerminalUntilReset : broken.status = .faulted := by decide

theorem witness_FaultsAreThoseOfTheTable :
    started.fault = none ∧ expectedFault (.push 8) (started.setX 7 0) = some (.invalidByteValue .reg 7 (-1)) ∧
    expectedFault (.mul 8 9) started = some (.outOfBounds .reg 8) := by decide

theorem witness_FaultLeavesPcAndAtMostOneRegister :
    (exec (.mul 7 7) started = .next (afterExec (.mul 7 7) started) ∧ (afterExec (.mul 7 7) started).fault ≠ none) ∧
    (exec (.push 8) started = .next (afterExec (.push 8) started) ∧ (afterExec (.push 8) started).fault ≠ none) ∧
    (exec (.pop 0) (started.setX 7 255) = .next (afterExec (.pop 0) (started.setX 7 255)) ∧
      (afterExec (.pop 0) (started.setX 7 255)).fault ≠ none) ∧ started.fault = none :=
  ⟨⟨rfl, by decide⟩, ⟨rfl, by decide⟩, ⟨rfl, by decide⟩, rfl⟩

theorem witness_TruncatedInstructionFaults :
    (started.setPc 255).fault = none ∧ (started.setPc 255).pc = 255 ∧ (started.setPc 254).pc = 254 ∧
    (started.setPc 255).fl.getLsbD 0 = false ∧ ((started.setPc 255).setFl 0x81).fl.getLsbD 0 = true := by decide

theorem witness_BadRegisterNumberFaults :
    (started.setPc 253).fault = none ∧ (started.setPc 253).pc + 2 < 256 ∧ 8 ≤ 8 ∧ 7 < 8 ∧
    (started.setPc 253).fl.getLsbD 0 = false ∧ ((started.setPc 253).setFl 0x81).fl.getLsbD 0 = true := by decide

theorem witness_PushFaults :
    ((started.setPc 254).setX 7 0).fault = none ∧ ((started.setPc 254).setX 7 0).pc + 1 < 256 ∧
    ((started.setPc 254).setX 7 0).sp = 0 ∧ ((started.setPc 254).setX 7 1).sp ≠ 0 ∧ 8 ≤ 8 := by decide

theorem witness_PopIncrementFaults :
    (((started.setPc 254).setX 7 255).fault = none ∧ ((started.setPc 254).setX 7 255).pc + 1 < 256 ∧ 0 < 8 ∧
      (if (0 : Nat) = 7 then ((started.setPc 254).setX 7 255).top else ((started.setPc 254).setX 7 255).sp) = 255) ∧
    (if (7 : Nat) = 7 then (started.setByte 0xF4 255).top else (started.setByte 0xF4 255).sp) = 255 := by decide

theorem witness_FlagWritersAndReaders :
    exec (.cmp 0 1) started = .next (afterExec (.cmp 0 1) started) ∧ exec .hlt started = .next (afterExec .hlt started) ∧
    exec (.ldi 0 1) started = .next (afterExec (.ldi 0 1) started) ∧
    unknownOpcode 0 started = .next (((started.addReport 0 0).setFl 0).setPc 1) ∧ State.reset.status = .halted ∧
    (State.reset.take .runStart).fl ≠ State.reset.fl ∧ (started.take .reset).fl ≠ started.fl ∧
    step (placed 0 [0x01]) = .next (after (placed 0 [0x01])) ∧ (after (placed 0 [0x01])).fl ≠ (placed 0 [0x01]).fl ∧
    (0x86 : Byte).getLsbD 0 = started.fl.getLsbD 0 :=
  ⟨rfl, rfl, rfl, rfl, by decide, by decide, by decide, rfl, by decide, by decide⟩

theorem witness_RegisterReadsAndWrites :
    exec (.pop 3) started = .next (afterExec (.pop 3) started) ∧ 2 < 8 ∧ writesRegister (.pop 3) 2 = false ∧
    readsRegister (.pop 3) started 3 = false := ⟨rfl, by decide, by decide, by decide⟩

theorem witness_OnlyPushWritesRam :
    step (placed 0 [0x45, 7]) = .next (after (placed 0 [0x45, 7])) ∧
    (after (placed 0 [0x45, 7])).ram.read 0xF3 = .ok 0xF3 ∧ (placed 0 [0x45, 7]).ram.read 0xF3 = .ok 0 :=
  ⟨rfl, rfl, rfl⟩

theorem witness_OnlyPrnWritesOut :
    step (placed 0 [0x47, 7]) = .next (after (placed 0 [0x47, 7])) ∧
    (after (placed 0 [0x47, 7])).out ≠ (placed 0 [0x47, 7]).out ∧ (placed 0 [0x47, 7]).ram.read 1 = .ok 7 ∧
    step (placed 0xFE [0x47, 0]) = .next (after (placed 0xFE [0x47, 0])) ∧
    (after (placed 0xFE [0x47, 0])).out ≠ (placed 0xFE [0x47, 0]).out := ⟨rfl, by decide, rfl, rfl, by decide⟩

theorem witness_StreamsAreNeverRead : step (placed 0 [0x47, 7]) = .next (after (placed 0 [0x47, 7])) := rfl

theorem witness_IrBetweenCyclesIsNeverRead : (started.setPc 255).status = .running ∧ (started.setPc 255).pc < 256 := by
  decide

/-- V-PUSH-8. -/
theorem witness_StoreIsSeenByTheNextFetch :
    ((placed 0x10 [0x45, 0]).setX 7 0x13).status = .running ∧
    ((placed 0x10 [0x45, 0]).setX 7 0x13).ram.read 0x10 = .ok 0x45 ∧
    ((placed 0x10 [0x45, 0]).setX 7 0x13).ram.read 0x11 = .ok 0 ∧ (0 : Byte).toNat < 7 ∧
    ((placed 0x10 [0x45, 0]).setX 7 0x13).sp.toNat = ((placed 0x10 [0x45, 0]).setX 7 0x13).pc + 3 :=
  ⟨by decide, rfl, rfl, by decide, by decide⟩

theorem witness_RunEndsInOneOfThreeWays : started.status = .running := by decide

/-- A run of two steps whose second is HLT ends normally; an unmapped byte ends it with its report. -/
theorem witness_RunEndsInOneOfThreeWays_ends :
    NormalEnd (placed 0 [0x47, 7, 0x01]) (after (after (placed 0 [0x47, 7, 0x01]))) ∧
    UnknownOpcodeEnd (placed 0 [0x47, 7, 0x11]) (after (after (placed 0 [0x47, 7, 0x11]))) :=
  ⟨⟨by decide, by decide, _, ⟨1, rfl⟩, by decide, rfl, rfl⟩,
    by decide, _, 0x11, ⟨⟨1, rfl⟩, by decide, rfl, rfl⟩, rfl, by decide⟩

theorem witness_StreamsOnlyGrow :
    Sys2Proof.core.run 1 (placed 0 [0x47, 7]) = .next (after (placed 0 [0x47, 7])) := rfl

theorem witness_DecodeOfEncodeIsTheInstruction :
    (Instr.cmp 255 255).wf = true ∧ (Instr.push 255).wf = true ∧ Instr.hlt.wf = true := by decide

theorem witness_EncodeOfDecodeIsTheBytes :
    decode [0xA7, 255, 255, 1] = .ok (.cmp 255 255, [1]) ∧ decode [0x46, 255] = .ok (.pop 255, []) ∧
    decode [0x01] = .ok (.hlt, []) := ⟨rfl, rfl, rfl⟩

theorem witness_InstructionLayout :
    decode (placed 0xFD [0xA7, 255, 1]).bytesFrom = .ok (.cmp 255 1, []) ∧ (encode (.cmp 255 1))[2]? = some 1 ∧
    (Instr.ldi 255 255).wf = true := ⟨rfl, rfl, rfl⟩

theorem witness_LoadFillsRamFromZero :
    State.reset.status = .halted ∧ (List.replicate 256 (255 : Int)).length ≤ 256 ∧
    (∀ b ∈ List.replicate 256 (255 : Int), 0 ≤ b ∧ b ≤ 255) ∧ ([0, 255] : List Int)[1]? = some 255 :=
  ⟨by decide, Nat.le_of_eq List.length_replicate,
    fun _ h => by rw [(List.mem_replicate.mp h).2]; decide, rfl⟩

theorem witness_LoadErrorsAreTheLoaders :
    State.reset.status = .halted ∧ (List.replicate 256 (0 : Int)).length = 256 ∧
    (∀ b ∈ List.replicate 256 (0 : Int), 0 ≤ b ∧ b ≤ 255) ∧ ([] : List Int).length ≤ 256 ∧ ((-1 : Int) < 0) ∧
    (255 : Int) < 256 :=
  ⟨by decide, List.length_replicate,
    fun _ h => by rw [(List.mem_replicate.mp h).2]; decide, by decide, by decide, by decide⟩

/-- Length 256 joined with a bad value: both sentences of R132 apply, and the answer is the address check's (D27). -/
theorem witness_LoadErrorsAreTheLoaders_both :
    (List.replicate 256 (0 : Int)).length = 256 ∧ (255 : Int) < 256 ∧
    (State.reset.load (List.replicate 256 (0 : Int) ++ 256 :: [])).2 = some (.outOfBounds .ram 256) :=
  ⟨List.length_replicate, by decide, by decide⟩

theorem witness_RunStartSetsRunningOnly :
    State.reset.status = .halted ∧ started.status ≠ .halted ∧ broken.status ≠ .halted := by decide

theorem witness_LaunchBootsOrRefuses :
    (([0x01, 255] : List Int).length ≤ 256 ∧ ∀ b ∈ ([0x01, 255] : List Int), 0 ≤ b ∧ b ≤ 255) ∧
    ¬ (([256] : List Int).length ≤ 256 ∧ ∀ b ∈ ([256] : List Int), 0 ≤ b ∧ b ≤ 255) := by decide

/-- The two sides of the length limit: 256 bytes boot, 257 are refused. -/
theorem witness_LaunchBootsOrRefuses_length :
    ((List.replicate 256 (255 : Int)).length ≤ 256 ∧ ∀ b ∈ List.replicate 256 (255 : Int), 0 ≤ b ∧ b ≤ 255) ∧
    ¬ ((List.replicate 257 (255 : Int)).length ≤ 256 ∧ ∀ b ∈ List.replicate 257 (255 : Int), 0 ≤ b ∧ b ≤ 255) :=
  ⟨⟨Nat.le_of_eq List.length_replicate, fun _ h => by rw [(List.mem_replicate.mp h).2]; decide⟩,
    fun h => absurd h.1 (by rw [List.length_replicate]; decide)⟩

theorem witness_SnapshotShowsTheState : (started.setPc 254).pc + 1 < 256 ∧ 256 ≤ (started.setPc 254).pc + 2 := by decide

end Sys2Proof.Tests
end

section
/-! PROOF. A raise of a handler (R10): what each primitive raises and in which state, that a raise skips every later line
of the pseudocode, and that the FAULTED state it leaves is terminal. -/

namespace Sys2Proof.Machine

/-! ### What the primitives raise (R9) -/

section
variable {s t : State} {f : Fault}

theorem readReg_error_iff {i : Int} : (readReg i).run s = .error f t ↔ s.reg.read i = .error f ∧ s = t := by
  simp only [EStateM.run, readReg]
  cases s.reg.read i <;> simp

theorem writeReg_error_iff {i v : Int} : (writeReg i v).run s = .error f t ↔ s.reg.write i v = .error f ∧ s = t := by
  simp only [EStateM.run, writeReg]
  cases s.reg.write i v <;> simp

theorem memRead_error_iff {a : Int} : (memRead a).run s = .error f t ↔ s.ram.read a = .error f ∧ s = t := by
  simp only [EStateM.run, memRead]
  cases s.ram.read a <;> simp

theorem memWrite_error_iff {a v : Int} : (memWrite a v).run s = .error f t ↔ s.ram.write a v = .error f ∧ s = t := by
  simp only [EStateM.run, memWrite]
  cases s.ram.write a v <;> simp

/-! ### The end of the instruction (R10, R114) -/

/-- The lines after a raise are not performed (R10). -/
theorem run_bind_error {α β : Type} {h : Handler α} {k : α → Handler β} (e : h.run s = .error f t) :
    (h >>= k).run s = .error f t := by
  simp only [EStateM.run_bind, e]

end

@[simp] theorem status_takeFault (s : State) (f : Fault) : (s.takeFault f).status = .faulted := by
  rw [status_faulted, State.takeFault_fault]
  cases s.fault <;> simp

/-- FAULTED is terminal: no run from a state that took a fault leaves it (R114). -/
theorem run_takeFault (n : Nat) (s : State) (f : Fault) :
    Sys2Proof.core.run n (s.takeFault f) = .next (s.takeFault f) :=
  run_of_not_running (by simp) n

/-- Settles O13: a raise passes through the later lines, the frame takes the fault in place of step 4, and FAULTED is
terminal; each primitive raises in the state it was called in. -/
theorem raiseEndsTheInstruction : Obligations.RaiseEndsTheInstruction := by
  refine ⟨fun op h k s t f raised =>
    ⟨?_, t.takeFault_pc f, t.takeFault_ram f, t.takeFault_reg f, fun n => run_takeFault n t f⟩, ?_, ?_, ?_, ?_⟩
  · exact runHandler_error (run_bind_error raised)
  · exact fun s t a f raised => (memRead_error_iff.mp raised).2.symm
  · exact fun s t a f raised => (readReg_error_iff.mp raised).2.symm
  · exact fun s t a v f raised => (memWrite_error_iff.mp raised).2.symm
  · exact fun s t a v f raised => (writeReg_error_iff.mp raised).2.symm

end Sys2Proof.Machine
end

section
/-! PROOF. Everything the run of an instruction can do, and which bytes it is decoded from: one inversion for all ten
meanings, the opcode an instruction came from, and the cycle by the byte it fetches. -/

namespace Sys2Proof.Machine

/-! ### Everything an instruction can do (R89 to R107, R113) -/

/-- The next states of an instruction: a fault with nothing else changed, a fault after one register write (PUSH, POP),
or the action of its rule. `fault` and `branch` speak of several instructions at once; a byte that an instruction writes
is any byte here, but for PRN, whose output a claim names. -/
inductive ExecEffect (s : State) : Instr → State → Prop where
  | fault {i : Instr} {f : Fault} : i ≠ .hlt → f.genuine = true → ExecEffect s i (s.takeFault f)
  | hlt : ExecEffect s .hlt ((s.setFl (flClearRunning s.fl)).setPc (s.pc + 1))
  | pushFault {r : Nat} {f : Fault} : f.genuine = true → ExecEffect s (.push r) ((s.setX 7 (s.sp - 1)).takeFault f)
  | push {r : Nat} (v : Byte) :
      ExecEffect s (.push r) (((s.setX 7 (s.sp - 1)).setByte (s.sp - 1).toNat v).setPc (s.pc + 2))
  | popFault {r : Nat} {f : Fault} (v : Byte) : r < 8 → f.genuine = true →
      ExecEffect s (.pop r) ((s.setX r v).takeFault f)
  | pop {r : Nat} (v w : Byte) : r < 8 → ExecEffect s (.pop r) (((s.setX r v).setX 7 w).setPc (s.pc + 2))
  | prn {r : Nat} : s.pc + 1 < 256 → r < 8 → ExecEffect s (.prn r) ((s.emit (s.x r)).setPc (s.pc + 2))
  | branch {i : Instr} {n : Nat} : Laws.OpcodeFieldsAgree.isBranch i = true → n < 256 ∨ n = s.pc + 2 →
      ExecEffect s i (s.setPc n)
  | ldi {r : Nat} {imm : Byte} : r < 8 → ExecEffect s (.ldi r imm) ((s.setX r imm).setPc (s.pc + 3))
  | mul {ra rb : Nat} (v : Byte) : ra < 8 → ExecEffect s (.mul ra rb) ((s.setX ra v).setPc (s.pc + 3))
  | cmp {ra rb : Nat} (va vb : Byte) :
      ExecEffect s (.cmp ra rb) ((s.setFl (flCompare s.fl va vb)).setPc (s.pc + 3))

theorem genuine_outOfBounds {m : Store} {a : Int} (h : ¬ m.valid a) : (Fault.outOfBounds m a).genuine = true := by
  simpa [Fault.genuine, ← inRange_iff] using h

theorem genuine_invalidByteValue {m : Store} {a v : Int} (ha : m.valid a) (hv : ¬ (0 ≤ v ∧ v ≤ 255)) :
    (Fault.invalidByteValue m a v).genuine = true := by
  simp [Fault.genuine, inRange_iff.mpr ha, byteOfInt_eq_none.mpr hv]

theorem genuine_operandFault {s : State} {k : Nat} (h : 256 ≤ s.pc + k) : (operandFault s k).genuine = true :=
  genuine_outOfBounds (not_valid_ram h)

theorem genuine_badRegister {r : Nat} (h : 8 ≤ r) : (Fault.outOfBounds .reg r).genuine = true :=
  genuine_outOfBounds (not_valid_reg h)

section
variable (s : State)

theorem execPush_effect (r : Nat) : ∃ t, execPush r s = .next t ∧ ExecEffect s (.push r) t := by
  rcases execPush_cases r s with ⟨hp, e⟩ | ⟨_, _, e⟩ | ⟨_, _, hr, e⟩ | ⟨_, _, _, e⟩
  · exact ⟨_, e, .fault nofun (genuine_operandFault hp)⟩
  · exact ⟨_, e, .fault nofun (by decide)⟩
  · exact ⟨_, e, .pushFault (genuine_badRegister hr)⟩
  · exact ⟨_, e, .push _⟩

theorem execPop_effect (r : Nat) : ∃ t, execPop r s = .next t ∧ ExecEffect s (.pop r) t := by
  rcases execPop_cases r s _ rfl with ⟨hp, e⟩ | ⟨_, hr, e⟩ | ⟨_, hr, _, e⟩ | ⟨_, hr, _, e⟩
  · exact ⟨_, e, .fault nofun (genuine_operandFault hp)⟩
  · exact ⟨_, e, .fault nofun (genuine_badRegister hr)⟩
  · exact ⟨_, e, .popFault _ hr (by decide)⟩
  · exact ⟨_, e, .pop _ _ hr⟩

theorem execPrn_effect (r : Nat) : ∃ t, execPrn r s = .next t ∧ ExecEffect s (.prn r) t := by
  rcases execPrn_cases r s with ⟨hp, e⟩ | ⟨_, hr, e⟩ | ⟨hp, hr, e⟩
  · exact ⟨_, e, .fault nofun (genuine_operandFault hp)⟩
  · exact ⟨_, e, .fault nofun (genuine_badRegister hr)⟩
  · exact ⟨_, e, .prn hp hr⟩

/-- The action of JMP, for each of the three instructions that share it. -/
theorem execJmp_effect (r : Nat) {i : Instr} (hi : Laws.OpcodeFieldsAgree.isBranch i = true) :
    ∃ t, execJmp r s = .next t ∧ ExecEffect s i t := by
  have hne : i ≠ .hlt := by rintro rfl; cases hi
  rcases execJmp_cases r s with ⟨hp, e⟩ | ⟨_, hr, e⟩ | ⟨_, _, e⟩
  · exact ⟨_, e, .fault hne (genuine_operandFault hp)⟩
  · exact ⟨_, e, .fault hne (genuine_badRegister hr)⟩
  · exact ⟨_, e, .branch hi (.inl (s.x r).isLt)⟩

theorem execJne_effect (r : Nat) : ∃ t, execJne r s = .next t ∧ ExecEffect s (.jne r) t := by
  cases h : s.equal with
  | false => exact execJne_taken h ▸ execJmp_effect s r rfl
  | true => exact ⟨_, execJne_skip h, .branch rfl (.inr rfl)⟩

theorem execJeq_effect (r : Nat) : ∃ t, execJeq r s = .next t ∧ ExecEffect s (.jeq r) t := by
  cases h : s.equal with
  | false => exact ⟨_, execJeq_skip h, .branch rfl (.inr rfl)⟩
  | true => exact execJeq_taken h ▸ execJmp_effect s r rfl

theorem execLdi_effect (r : Nat) (imm : Byte) : ∃ t, execLdi r imm s = .next t ∧ ExecEffect s (.ldi r imm) t := by
  rcases execLdi_cases r imm s with ⟨hp, e⟩ | ⟨_, hp, e⟩ | ⟨_, hr, e⟩ | ⟨_, hr, e⟩
  · exact ⟨_, e, .fault nofun (genuine_operandFault hp)⟩
  · exact ⟨_, e, .fault nofun (genuine_operandFault hp)⟩
  · exact ⟨_, e, .fault nofun (genuine_badRegister hr)⟩
  · exact ⟨_, e, .ldi hr⟩

theorem execMul_effect (ra rb : Nat) : ∃ t, execMul ra rb s = .next t ∧ ExecEffect s (.mul ra rb) t := by
  rcases execMul_cases ra rb s _ rfl with
    ⟨hp, e⟩ | ⟨_, hp, e⟩ | ⟨_, ha, e⟩ | ⟨_, _, hb, e⟩ | ⟨_, ha, _, hv, e⟩ | ⟨_, ha, _, _, e⟩
  · exact ⟨_, e, .fault nofun (genuine_operandFault hp)⟩
  · exact ⟨_, e, .fault nofun (genuine_operandFault hp)⟩
  · exact ⟨_, e, .fault nofun (genuine_badRegister ha)⟩
  · exact ⟨_, e, .fault nofun (genuine_badRegister hb)⟩
  · exact ⟨_, e, .fault nofun (genuine_invalidByteValue (valid_reg ha) (by omega))⟩
  · exact ⟨_, e, .mul _ ha⟩

theorem execCmp_effect (ra rb : Nat) : ∃ t, execCmp ra rb s = .next t ∧ ExecEffect s (.cmp ra rb) t := by
  rcases execCmp_cases ra rb s with ⟨hp, e⟩ | ⟨_, hp, e⟩ | ⟨_, ha, e⟩ | ⟨_, _, hb, e⟩ | ⟨_, _, _, e⟩
  · exact ⟨_, e, .fault nofun (genuine_operandFault hp)⟩
  · exact ⟨_, e, .fault nofun (genuine_operandFault hp)⟩
  · exact ⟨_, e, .fault nofun (genuine_badRegister ha)⟩
  · exact ⟨_, e, .fault nofun (genuine_badRegister hb)⟩
  · exact ⟨_, e, .cmp _ _⟩

/-- Every instruction answers a next state, and it is one of its effects (R88). -/
theorem exec_effect (i : Instr) : ∃ t, exec i s = .next t ∧ ExecEffect s i t := by
  cases i with
  | hlt => exact ⟨_, execHlt_eq s, .hlt⟩
  | push r => exact execPush_effect s r
  | pop r => exact execPop_effect s r
  | prn r => exact execPrn_effect s r
  | jmp r => exact execJmp_effect s r rfl
  | jne r => exact execJne_effect s r
  | jeq r => exact execJeq_effect s r
  | ldi r imm => exact execLdi_effect s r imm
  | mul ra rb => exact execMul_effect s ra rb
  | cmp ra rb => exact execCmp_effect s ra rb

end

/-- The inversion of `exec`. -/
theorem ExecEffect.of_exec {i : Instr} {s t : State} (h : exec i s = .next t) : ExecEffect s i t := by
  obtain ⟨t', e, effect⟩ := exec_effect s i
  cases e.symm.trans h
  exact effect

/-! ### The bytes an instruction was assembled from (R65, R66) -/

theorem mem_tables_of_dispatch {op : Byte} {mk : Byte → Byte → Instr} (h : dispatch op = some mk) :
    (op, mk) ∈ ordinaryTable ∨ (op, mk) ∈ aluTable := by
  obtain ⟨front, back, e, _⟩ := List.lookup_eq_some_iff.mp h
  have hmem : (op, mk) ∈ dispatchTable op := by simp [e]
  unfold dispatchTable at hmem
  split at hmem
  · exact .inr hmem
  · exact .inl hmem

theorem opcode_of_dispatch {op : Byte} {mk : Byte → Byte → Instr} (h : dispatch op = some mk) (b1 b2 : Byte) :
    (mk b1 b2).opcode = op := by
  have hmem := mem_tables_of_dispatch h
  simp only [ordinaryTable, aluTable, List.mem_cons, List.not_mem_nil, Prod.mk.injEq, or_false] at hmem
  rcases hmem with (⟨rfl, rfl⟩ | ⟨rfl, rfl⟩ | ⟨rfl, rfl⟩ | ⟨rfl, rfl⟩ | ⟨rfl, rfl⟩ | ⟨rfl, rfl⟩ | ⟨rfl, rfl⟩ |
    ⟨rfl, rfl⟩) | ⟨rfl, rfl⟩ | ⟨rfl, rfl⟩ <;> rfl

theorem opcode_of_assemble {op b1 b2 : Byte} {i : Instr} (h : assemble op b1 b2 = some i) : i.opcode = op := by
  obtain ⟨mk, hmk, rfl⟩ := Option.map_eq_some_iff.mp h
  exact opcode_of_dispatch hmk b1 b2

theorem assemble_prn {op b1 b2 : Byte} {r : Nat} (h : assemble op b1 b2 = some (.prn r)) :
    op = Opcode.prn ∧ b1.toNat = r := by
  obtain rfl := opcode_of_assemble h
  rw [show (Instr.prn r).opcode = Opcode.prn from rfl, assemble_of_dispatch dispatch_prn] at h
  exact ⟨rfl, by simpa using h⟩

/-! ### The cycle, by the byte at PC (R77, R78) -/

section
variable {s : State}

theorem fetchOpcode_ok (h : s.pc < 256) : fetchOpcode.run s = .ok (s.ram.peek s.pc) (s.setIr (s.ram.peek s.pc)) := by
  simp only [fetchOpcode, EStateM.run_bind, EStateM.run_get, memRead_ok h, EStateM.run_modify, EStateM.run_pure]

theorem fetchOpcode_bad (h : 256 ≤ s.pc) : fetchOpcode.run s = .error (.outOfBounds .ram s.pc) s := by
  simp only [fetchOpcode, EStateM.run_bind, EStateM.run_get, memRead_bad h]

theorem cycle_of_size_le (h : 256 ≤ s.pc) : cycle s = .next (s.takeFault (.outOfBounds .ram s.pc)) := by
  simp only [cycle, fetchOpcode_bad h]

theorem cycle_of_assemble {i : Instr} (h : s.pc < 256)
    (hi : assemble (s.ram.peek s.pc) (s.ram.peek (s.pc + 1)) (s.ram.peek (s.pc + 2)) = some i) :
    cycle s = exec i (s.setIr (s.ram.peek s.pc)) := by
  simp only [cycle, fetchOpcode_ok h, decodeAt, State.setIr_ram, State.setIr_pc, hi]

theorem cycle_of_unmapped (h : s.pc < 256) (hd : dispatch (s.ram.peek s.pc) = none) :
    cycle s = unknownOpcode (s.ram.peek s.pc) (s.setIr (s.ram.peek s.pc)) := by
  simp only [cycle, fetchOpcode_ok h, decodeAt, State.setIr_ram, State.setIr_pc, assemble, hd, Option.map_none]

end

theorem exists_step (s : State) : ∃ t, step s = .next t := by
  by_cases hs : s.status = .running
  · rw [step_of_running hs]
    rcases cycle_cases s with ⟨_, e⟩ | ⟨i, _, _, e⟩ | ⟨_, _, e⟩ <;> rw [e]
    · exact ⟨_, rfl⟩
    · obtain ⟨t, ht, _⟩ := exec_effect (s.setIr (s.ram.peek s.pc)) i
      exact ⟨t, ht⟩
    · exact ⟨_, unknownOpcode_eq _ _⟩
  · exact ⟨s, step_of_not_running hs⟩

/-- Everything a step can do, by its effect: none at all when the machine is not RUNNING; else a fault of the fetch, an
effect of the instruction at PC, or a report. -/
theorem step_cases {s t : State} (h : step s = .next t) :
    (s.status ≠ .running ∧ t = s) ∨
    (s.status = .running ∧ 256 ≤ s.pc ∧ t = s.takeFault (.outOfBounds .ram s.pc)) ∨
    (∃ i, s.status = .running ∧ s.pc < 256 ∧
      assemble (s.ram.peek s.pc) (s.ram.peek (s.pc + 1)) (s.ram.peek (s.pc + 2)) = some i ∧
      ExecEffect (s.setIr (s.ram.peek s.pc)) i t) ∨
    (s.status = .running ∧ s.pc < 256 ∧ dispatch (s.ram.peek s.pc) = none ∧
      unknownOpcode (s.ram.peek s.pc) (s.setIr (s.ram.peek s.pc)) = .next t) := by
  by_cases hr : s.status = .running
  · rw [step_of_running hr] at h
    rcases cycle_cases s with ⟨hp, e⟩ | ⟨i, hp, hi, e⟩ | ⟨hp, hd, e⟩ <;> rw [e] at h
    · cases h; exact .inr (.inl ⟨hr, hp, rfl⟩)
    · exact .inr (.inr (.inl ⟨i, hr, hp, hi, .of_exec h⟩))
    · exact .inr (.inr (.inr ⟨hr, hp, hd, h⟩))
  · rw [step_of_not_running hr] at h
    cases h
    exact .inl ⟨hr, rfl⟩

end Sys2Proof.Machine
end

section
/-! PROOF. The writes of FL, bit by bit (R89, R107, R133) and as values (R21). -/

namespace Sys2Proof.Machine

/-! ### Bits -/

theorem getLsbD_flClearRunning (fl : Byte) (b : Nat) :
    (flClearRunning fl).getLsbD b = (fl.getLsbD b && decide (b ≠ 7)) := by
  have mask : ∀ b < 8, (0x7F : Byte).getLsbD b = decide (b ≠ 7) := by decide
  by_cases hb : b < 8
  · rw [flClearRunning, BitVec.getLsbD_and, mask b hb]
  · simp [BitVec.getLsbD_of_ge _ b (Nat.le_of_not_lt hb)]

theorem getLsbD_flSetRunning (fl : Byte) (b : Nat) :
    (flSetRunning fl).getLsbD b = (fl.getLsbD b || decide (b = 7)) := by
  have mask : ∀ b < 8, (0x80 : Byte).getLsbD b = decide (b = 7) := by decide
  by_cases hb : b < 8
  · rw [flSetRunning, BitVec.getLsbD_or, mask b hb]
  · have : b ≠ 7 := by omega
    simp [BitVec.getLsbD_of_ge _ b (Nat.le_of_not_lt hb), this]

/-- HLT's write as the statements spell it: bit 7 is clear and the others are kept. -/
theorem flClearRunning_bits (fl : Byte) :
    (flClearRunning fl).getLsbD 7 = false ∧ ∀ b, b ≠ 7 → (flClearRunning fl).getLsbD b = fl.getLsbD b :=
  ⟨by rw [getLsbD_flClearRunning]; simp, fun b hb => by simp [getLsbD_flClearRunning, hb]⟩

/-- Run start's write as the statements spell it: bit 7 is set and the others are kept. -/
theorem flSetRunning_bits (fl : Byte) :
    (flSetRunning fl).getLsbD 7 = true ∧ ∀ b, b ≠ 7 → (flSetRunning fl).getLsbD b = fl.getLsbD b :=
  ⟨by rw [getLsbD_flSetRunning]; simp, fun b hb => by simp [getLsbD_flSetRunning, hb]⟩

/-- CMP writes exactly one of the three comparison flags (R21): LESS, GREATER or EQUAL. -/
theorem flCompare_eq (fl va vb : Byte) :
    ∃ c ∈ ([0x04, 0x02, 0x01] : List Byte), flCompare fl va vb = (fl &&& 0xF8) ||| c := by
  rcases Nat.lt_trichotomy va.toNat vb.toNat with h | h | h
  · exact ⟨0x04, by decide, by simp [flCompare, h, Nat.lt_asymm h, Nat.ne_of_lt h]⟩
  · exact ⟨0x01, by decide, by simp [flCompare, h]⟩
  · exact ⟨0x02, by decide, by simp [flCompare, h, Nat.lt_asymm h, Nat.ne_of_gt h]⟩

theorem getLsbD_flCompare_of_le (fl va vb : Byte) {b : Nat} (h : 3 ≤ b) :
    (flCompare fl va vb).getLsbD b = fl.getLsbD b := by
  have kept : ∀ b < 8, 3 ≤ b → (0xF8 : Byte).getLsbD b = true := by decide
  have clear : ∀ c ∈ ([0x04, 0x02, 0x01] : List Byte), ∀ b < 8, 3 ≤ b → c.getLsbD b = false := by decide
  obtain ⟨c, hc, e⟩ := flCompare_eq fl va vb
  by_cases hb : b < 8
  · rw [e, BitVec.getLsbD_or, BitVec.getLsbD_and, kept b hb h, clear c hc b hb h, Bool.and_true, Bool.or_false]
  · rw [BitVec.getLsbD_of_ge _ b (Nat.le_of_not_lt hb), BitVec.getLsbD_of_ge _ b (Nat.le_of_not_lt hb)]

/-! ### Values -/

theorem flClearRunning_mem {fl : Byte} (h : fl ∈ reachableFl) : flClearRunning fl ∈ reachableFl := by
  have closed : ∀ fl ∈ reachableFl, flClearRunning fl ∈ reachableFl := by simp [reachableFl, flClearRunning]
  exact closed fl h

theorem flSetRunning_mem {fl : Byte} (h : fl ∈ reachableFl) : flSetRunning fl ∈ reachableFl := by
  have closed : ∀ fl ∈ reachableFl, flSetRunning fl ∈ reachableFl := by simp [reachableFl, flSetRunning]
  exact closed fl h

theorem flCompare_mem {fl : Byte} (va vb : Byte) (h : fl ∈ reachableFl) : flCompare fl va vb ∈ reachableFl := by
  have closed : ∀ c ∈ ([0x04, 0x02, 0x01] : List Byte), ∀ fl ∈ reachableFl, (fl &&& 0xF8) ||| c ∈ reachableFl := by
    simp [reachableFl]
  obtain ⟨c, hc, e⟩ := flCompare_eq fl va vb
  exact e ▸ closed c hc fl h

end Sys2Proof.Machine
end

section
/-! PROOF. The invariant of R34: it holds at reset, every update the machine makes keeps it, and so every step and every
external event does. -/

namespace Sys2Proof.Machine

/-! ### Reset -/

/-- Settles O4: the fields are those of R32's table, the two stores read by their listed cells. -/
theorem resetLeavesTheStatedValues : Obligations.ResetLeavesTheStatedValues := by
  have registers : (∀ k, k < 7 → State.reset.x k = 0) ∧ State.reset.sp = 0xF4 := by decide
  refine ⟨fun a h0 h1 => State.reset.ram.read_of_valid ⟨h0, h1⟩, registers.1, registers.2, ?_⟩
  exact ⟨rfl, rfl, rfl, rfl, rfl, rfl, status_halted.mpr ⟨rfl, rfl⟩⟩

/-- Settles O5: nothing is latched and nothing is reported, so only the stores, PC and FL have something to check. -/
theorem resetMeetsInvariant : Obligations.ResetMeetsInvariant := by
  obtain ⟨ram, reg⟩ := reset_memory_wf
  exact ⟨ram, reg, by decide, by decide, nofun, nofun⟩

/-! ### Updates -/

section
variable {s : State} (h : s.Inv)
include h

theorem State.Inv.fl_mem : s.fl ∈ reachableFl := by
  obtain ⟨_, _, _, fl, _⟩ := h
  exact fl

theorem State.Inv.setRam {m : Memory .ram} (hm : m.wf = true) : (s.setRam m).Inv := ⟨hm, h.2⟩

theorem State.Inv.setByte {a : Nat} (v : Byte) (ha : a < 256) : (s.setByte a v).Inv :=
  h.setRam (s.ram.wf_poke ha h.1)

theorem State.Inv.setX {r : Nat} (v : Byte) (hr : r < 8) : (s.setX r v).Inv := by
  obtain ⟨ram, reg, rest⟩ := h
  exact ⟨ram, s.reg.wf_poke hr reg, rest⟩

theorem State.Inv.setPc {n : Nat} (hn : n ≤ 259) : (s.setPc n).Inv := by
  obtain ⟨ram, reg, _, rest⟩ := h
  exact ⟨ram, reg, hn, rest⟩

theorem State.Inv.setIr (b : Byte) : (s.setIr b).Inv := h

theorem State.Inv.emit (v : Byte) : (s.emit v).Inv := h

/-- FL may be written while no fault is latched, so that RUNNING need not stay set. -/
theorem State.Inv.setFl {fl : Byte} (hfl : fl ∈ reachableFl) (hf : s.fault = none) : (s.setFl fl).Inv := by
  obtain ⟨ram, reg, pc, _, _, diag⟩ := h
  refine ⟨ram, reg, pc, hfl, ?_, diag⟩
  rw [State.setFl_fault, hf]
  exact nofun

theorem State.Inv.addReport {op : Byte} {n : Nat} (hd : dispatch op = none) (hn : n < 256) : (s.addReport op n).Inv := by
  obtain ⟨ram, reg, pc, fl, fault, diag⟩ := h
  refine ⟨ram, reg, pc, fl, fault, fun r hr => ?_⟩
  rcases List.mem_append.mp hr with old | new
  · exact diag r old
  · cases List.mem_singleton.mp new
    exact ⟨by rw [hd]; rfl, hn⟩

/-- A genuine fault is taken in status RUNNING: the latch takes it and RUNNING is still set (R114). -/
theorem State.Inv.takeFault {f : Fault} (hf : f.genuine = true) (hs : s.status = .running) : (s.takeFault f).Inv := by
  obtain ⟨running, empty⟩ := status_running.mp hs
  obtain ⟨ram, reg, pc, fl, _, diag⟩ := h
  refine ⟨ram, reg, pc, fl, fun g hg => ?_, diag⟩
  rw [State.takeFault_fault, empty] at hg
  cases hg
  exact ⟨hf, running⟩

end

/-! ### Steps -/

theorem instrLength_le (op : Byte) : instrLength op ≤ 4 := by
  have : operandCount op ≤ 3 := by
    rw [operandCount, BitVec.toNat_and]
    exact Nat.and_le_right
  unfold instrLength
  omega

/-- An unmapped byte's length is up to 4 (R61), so from inside RAM the advance reaches 259 at most (R24). -/
theorem State.Inv.advance {s : State} (h : s.Inv) (op : Byte) (hp : s.pc < 256) : (s.advance op).Inv := by
  have := instrLength_le op
  unfold State.advance
  split
  · exact h
  · exact h.setPc (by omega)

theorem ExecEffect.keeps_inv {i : Instr} {s t : State} (effect : ExecEffect s i t) (h : s.Inv)
    (hs : s.status = .running) (hp : s.pc < 256) : t.Inv := by
  have unlatched : s.fault = none := (status_running.mp hs).2
  cases effect with
  | fault _ hf => exact h.takeFault hf hs
  | hlt => exact (h.setFl (flClearRunning_mem h.fl_mem) unlatched).setPc (by omega)
  | pushFault hf => exact (h.setX _ (by decide)).takeFault hf hs
  | push v => exact ((h.setX _ (by decide)).setByte v (BitVec.isLt _)).setPc (by omega)
  | popFault v hr hf => exact (h.setX v hr).takeFault hf hs
  | pop v w hr => exact ((h.setX v hr).setX w (by decide)).setPc (by omega)
  | prn => exact (h.emit _).setPc (by omega)
  | branch _ hn => exact h.setPc (by omega)
  | ldi hr => exact (h.setX _ hr).setPc (by omega)
  | mul v ha => exact (h.setX v ha).setPc (by omega)
  | cmp va vb => exact (h.setFl (flCompare_mem va vb h.fl_mem) unlatched).setPc (by omega)

theorem unknownOpcode_keeps_inv {op : Byte} {s t : State} (e : unknownOpcode op s = .next t) (h : s.Inv)
    (hs : s.status = .running) (hp : s.pc < 256) (hd : dispatch op = none) : t.Inv := by
  rw [unknownOpcode_eq] at e
  cases e
  have reported := h.addReport hd hp
  have halted := reported.setFl (flClearRunning_mem h.fl_mem) (status_running.mp hs).2
  exact halted.advance op hp

/-- Settles O6: by the cases of a step, each of which is a chain of updates that keep the invariant. -/
theorem stepKeepsInvariant : Obligations.StepKeepsInvariant := by
  intro s t h hstep
  rcases step_cases hstep with ⟨_, rfl⟩ | ⟨hs, hp, rfl⟩ | ⟨i, hs, hp, _, effect⟩ | ⟨hs, hp, hd, e⟩
  · exact h
  · exact h.takeFault (genuine_outOfBounds (not_valid_ram hp)) hs
  · exact effect.keeps_inv (h.setIr _) hs hp
  · exact unknownOpcode_keeps_inv e (h.setIr _) hs hp hd

/-! ### External events -/

theorem runStart_of_halted {s : State} (h : s.status = .halted) : s.runStart = s.setFl (flSetRunning s.fl) := by
  simp only [State.runStart, h]

theorem runStart_of_not_halted {s : State} (h : s.status ≠ .halted) : s.runStart = s := by
  unfold State.runStart; cases e : s.status <;> simp_all

/-- Everything a load can do to the state: nothing, or a new main memory in canonical form (R131, R132). -/
theorem load_cases (s : State) (bytes : List Int) :
    (s.load bytes).1 = s ∨ ∃ m : Memory .ram, m.wf = true ∧ (s.load bytes).1 = s.setRam m := by
  unfold State.load
  cases s.status with
  | halted => exact .inr ⟨_, wf_loadBytes s.ram.wf_clear, rfl⟩
  | running => exact .inl rfl
  | faulted => exact .inl rfl

theorem State.Inv.take {s : State} (h : s.Inv) (e : Event) : (s.take e).Inv := by
  cases e with
  | reset => exact resetMeetsInvariant
  | load bytes =>
    rcases load_cases s bytes with e | ⟨m, hm, e⟩ <;> simp only [State.take, e]
    · exact h
    · exact h.setRam hm
  | runStart =>
    by_cases hs : s.status = .halted
    · simp only [State.take, runStart_of_halted hs]
      exact h.setFl (flSetRunning_mem h.fl_mem) (status_halted.mp hs).2
    · simp only [State.take, runStart_of_not_halted hs]
      exact h

/-- Settles O7, by induction on the way the state was reached. -/
theorem reachableStatesMeetInvariant : Obligations.ReachableStatesMeetInvariant := by
  intro s reached
  induction reached with
  | reset => exact resetMeetsInvariant
  | step _ hstep ih => exact stepKeepsInvariant _ _ ih hstep
  | event e _ ih => exact ih.take e

end Sys2Proof.Machine
end

section
/-! PROOF. Noninterference: a relation between two states that every update of the machine preserves is preserved by
every instruction, so the two runs answer alike. It is applied to states that differ in FL, in one register, or in the
streams. -/

namespace Sys2Proof.Machine

/-- A relation between two states that agree on PC and RAM, preserved when both states take the same update. -/
structure Congruence (R : State → State → Prop) : Prop where
  pc {s u : State} : R s u → u.pc = s.pc
  ram {s u : State} : R s u → u.ram = s.ram
  setX {s u : State} (i : Nat) (v : Byte) : R s u → R (s.setX i v) (u.setX i v)
  setByte {s u : State} (a : Nat) (v : Byte) : R s u → R (s.setByte a v) (u.setByte a v)
  setPc {s u : State} (n : Nat) : R s u → R (s.setPc n) (u.setPc n)
  setIr {s u : State} (b : Byte) : R s u → R (s.setIr b) (u.setIr b)
  mapFl {s u : State} (φ : Byte → Byte) : R s u → R (s.setFl (φ s.fl)) (u.setFl (φ u.fl))
  emit {s u : State} (v : Byte) : R s u → R (s.emit v) (u.emit v)
  addReport {s u : State} (op : Byte) (n : Nat) : R s u → R (s.addReport op n) (u.addReport op n)
  takeFault {s u : State} (f : Fault) : R s u → R (s.takeFault f) (u.takeFault f)

/-- Two answers of a handler that differ only as the relation allows: both return, with one value, or both raise, with
one error. -/
inductive Alike (R : State → State → Prop) {α : Type} :
    EStateM.Result Fault State α → EStateM.Result Fault State α → Prop where
  | ok {s u : State} (a : α) : R s u → Alike R (.ok a s) (.ok a u)
  | error {s u : State} (f : Fault) : R s u → Alike R (.error f s) (.error f u)

/-- From related states the handler answers alike. -/
def Respects (R : State → State → Prop) {α : Type} (h : Handler α) : Prop :=
  ∀ s u, R s u → Alike R (h.run s) (h.run u)

/-- Both outcomes are next states, and those are related. -/
def NextRelated (R : State → State → Prop) (a b : Host.Outcome State Fault Refusal) : Prop :=
  ∃ t w, a = .next t ∧ b = .next w ∧ R t w

/-- Whether a guarded write succeeds is a matter of its address and its value, not of what the store holds (R37). -/
theorem write_succeeds_or_fails (m : Store) (a v : Int) :
    (∃ b : Byte, ∀ mem : Memory m, mem.write a v = .ok (mem.poke a.toNat b)) ∨
    (∃ f : Fault, ∀ mem : Memory m, mem.write a v = .error f) := by
  by_cases ha : m.valid a
  · cases hv : byteOfInt v with
    | some b => exact .inl ⟨b, fun mem => byteOfInt_eq_some.mp hv ▸ mem.write_of_valid ha⟩
    | none => exact .inr ⟨_, fun mem => mem.write_of_bad_value ha (byteOfInt_eq_none.mp hv)⟩
  · exact .inr ⟨_, fun mem => mem.write_of_not_valid ha⟩

section
variable {R : State → State → Prop}

/-! ### Lines of pseudocode -/

theorem Respects.bind {α β : Type} {h : Handler α} {k : α → Handler β} (hh : Respects R h)
    (hk : ∀ a, Respects R (k a)) : Respects R (h >>= k) := by
  intro s u hsu
  have head := hh s u hsu
  rw [EStateM.run_bind, EStateM.run_bind]
  generalize h.run s = x, h.run u = y at head
  cases head with
  | ok a related => exact hk a _ _ related
  | error f related => exact .error f related

theorem respects_modify {g : State → State} (hg : ∀ s u, R s u → R (g s) (g u)) : Respects R (modify g) :=
  fun s u hsu => .ok () (hg s u hsu)

/-- A register read respects the relation when related states agree on that register; a number of 8 or more names none. -/
theorem respects_readReg {r : Nat} (hr : r < 8 → ∀ s u, R s u → u.x r = s.x r) : Respects R (readReg r) := by
  intro s u hsu
  by_cases h : r < 8
  · rw [readReg_ok h, readReg_ok h, hr h s u hsu]
    exact .ok _ hsu
  · rw [readReg_bad (Nat.le_of_not_lt h), readReg_bad (Nat.le_of_not_lt h)]
    exact .error _ hsu

variable (hR : Congruence R)
include hR

theorem respects_writeReg (i v : Int) : Respects R (writeReg i v) := by
  intro s u hsu
  rcases write_succeeds_or_fails .reg i v with ⟨b, e⟩ | ⟨f, e⟩ <;> simp only [EStateM.run, writeReg, e]
  · exact .ok () (hR.setX i.toNat b hsu)
  · exact .error f hsu

theorem respects_memRead (a : Int) : Respects R (memRead a) := by
  intro s u hsu
  simp only [EStateM.run, memRead, hR.ram hsu]
  cases s.ram.read a with
  | ok v => exact .ok v hsu
  | error f => exact .error f hsu

theorem respects_memWrite (a v : Int) : Respects R (memWrite a v) := by
  intro s u hsu
  rcases write_succeeds_or_fails .ram a v with ⟨b, e⟩ | ⟨f, e⟩ <;> simp only [EStateM.run, memWrite, e]
  · exact .ok () (hR.setByte a.toNat b hsu)
  · exact .error f hsu

theorem respects_fetchOperand (k : Nat) : Respects R (fetchOperand k) := by
  intro s u hsu
  by_cases h : s.pc + k < 256
  · rw [fetchOperand_ok h, fetchOperand_ok (hR.pc hsu ▸ h)]
    exact .ok () hsu
  · have h' := Nat.le_of_not_lt h
    rw [fetchOperand_bad h', fetchOperand_bad (hR.pc hsu ▸ h'), hR.pc hsu]
    exact .error _ hsu

theorem respects_fetchAluOperands : Respects R fetchAluOperands :=
  (respects_fetchOperand hR 1).bind fun _ => respects_fetchOperand hR 2

theorem respects_haltHandler : Respects R haltHandler := respects_modify fun _ _ => hR.mapFl flClearRunning

theorem respects_skipHandler : Respects R skipHandler :=
  respects_modify fun _ _ hsu => hR.pc hsu ▸ hR.setPc _ hsu

theorem respects_jumpHandler {r : Nat} (hr : r < 8 → ∀ s u, R s u → u.x r = s.x r) : Respects R (jumpHandler r) :=
  (respects_fetchOperand hR 1).bind fun _ => (respects_readReg hr).bind fun _ => respects_modify fun _ _ => hR.setPc _

/-! ### Instructions and cycles -/

theorem Congruence.advance {s u : State} (op : Byte) (hsu : R s u) : R (s.advance op) (u.advance op) := by
  unfold State.advance
  split
  · exact hsu
  · rw [hR.pc hsu]
    exact hR.setPc _ hsu

theorem runHandler_related {s u : State} {h : Handler Unit} (op : Byte) (hh : Respects R h) (hsu : R s u) :
    NextRelated R (runHandler op h s) (runHandler op h u) := by
  have answers := hh s u hsu
  unfold runHandler
  generalize h.run s = x, h.run u = y at answers
  cases answers with
  | ok _ related => exact ⟨_, _, rfl, rfl, hR.advance op related⟩
  | error f related => exact ⟨_, _, rfl, rfl, hR.takeFault f related⟩

theorem unknownOpcode_related {s u : State} (op : Byte) (hsu : R s u) :
    NextRelated R (unknownOpcode op s) (unknownOpcode op u) :=
  runHandler_related hR op ((respects_modify fun s _ h => hR.pc h ▸ hR.addReport op s.pc h).bind
    fun _ => respects_haltHandler hR) hsu

/-- An instruction sees of the state its operand bytes, the registers it reads and EQUAL: from related states that agree
on these it answers related states. -/
theorem exec_related {i : Instr} {s u : State} (hsu : R s u) (equal : u.equal = s.equal)
    (reads : ∀ k, k < 8 → readsRegister i s k = true → ∀ s' u', R s' u' → u'.x k = s'.x k) :
    NextRelated R (exec i s) (exec i u) := by
  have read : ∀ k, readsRegister i s k = true → Respects R (readReg k) :=
    fun k hk => respects_readReg fun h => reads k h hk
  have fetch := respects_fetchOperand hR
  have fetchAlu := respects_fetchAluOperands hR
  cases i with
  | hlt => exact runHandler_related hR _ (respects_haltHandler hR) hsu
  | push r =>
    have readSp : Respects R readSp := read 7 (by simp [readsRegister])
    refine runHandler_related hR _ ?_ hsu
    exact (fetch 1).bind fun _ => readSp.bind fun _ => (respects_writeReg hR _ _).bind fun _ =>
      (read r (by simp [readsRegister])).bind fun _ => readSp.bind fun _ => respects_memWrite hR _ _
  | pop r =>
    have readSp : Respects R readSp := read 7 (by simp [readsRegister])
    refine runHandler_related hR _ ?_ hsu
    exact (fetch 1).bind fun _ => readSp.bind fun _ => (respects_memRead hR _).bind fun _ =>
      (respects_writeReg hR _ _).bind fun _ => readSp.bind fun _ => respects_writeReg hR _ _
  | prn r =>
    refine runHandler_related hR _ ?_ hsu
    exact (fetch 1).bind fun _ => (read r (by simp [readsRegister])).bind fun _ =>
      respects_modify fun _ _ => hR.emit _
  | jmp r =>
    exact runHandler_related hR _ (respects_jumpHandler hR fun h => reads r h (by simp [readsRegister])) hsu
  | jne r =>
    simp only [exec, execJne, equal]
    cases h : s.equal with
    | true => exact runHandler_related hR _ (respects_skipHandler hR) hsu
    | false =>
      exact runHandler_related hR _ (respects_jumpHandler hR fun hr => reads r hr (by simp [readsRegister, h])) hsu
  | jeq r =>
    simp only [exec, execJeq, equal]
    cases h : s.equal with
    | true =>
      exact runHandler_related hR _ (respects_jumpHandler hR fun hr => reads r hr (by simp [readsRegister, h])) hsu
    | false => exact runHandler_related hR _ (respects_skipHandler hR) hsu
  | ldi r imm =>
    refine runHandler_related hR _ ?_ hsu
    exact (fetch 1).bind fun _ => (fetch 2).bind fun _ => respects_writeReg hR _ _
  | mul ra rb =>
    refine runHandler_related hR _ ?_ hsu
    exact fetchAlu.bind fun _ => (read ra (by simp [readsRegister])).bind fun _ =>
      (read rb (by simp [readsRegister])).bind fun _ => respects_writeReg hR _ _
  | cmp ra rb =>
    refine runHandler_related hR _ ?_ hsu
    exact fetchAlu.bind fun _ => (read ra (by simp [readsRegister])).bind fun va =>
      (read rb (by simp [readsRegister])).bind fun vb =>
      respects_modify fun _ _ => hR.mapFl fun fl => flCompare fl va vb

/-- The same for a cycle, when related states agree on every register. -/
theorem cycle_related {s u : State} (hsu : R s u) (equal : u.equal = s.equal)
    (regs : ∀ k, ∀ s' u', R s' u' → u'.x k = s'.x k) : NextRelated R (cycle s) (cycle u) := by
  have pc := hR.pc hsu
  have ram := hR.ram hsu
  rcases cycle_cases s with ⟨hp, e⟩ | ⟨i, hp, hi, e⟩ | ⟨hp, hd, e⟩ <;> rw [e]
  · exact ⟨_, _, rfl, cycle_of_size_le (pc ▸ hp), pc ▸ hR.takeFault _ hsu⟩
  · rw [cycle_of_assemble (s := u) (i := i) (pc ▸ hp) (by rw [pc, ram]; exact hi), pc, ram]
    exact exec_related hR (hR.setIr _ hsu) equal fun k _ _ => regs k
  · rw [cycle_of_unmapped (s := u) (pc ▸ hp) (by rw [pc, ram]; exact hd), pc, ram]
    exact unknownOpcode_related hR _ (hR.setIr _ hsu)

end

end Sys2Proof.Machine
end

section
/-! PROOF. FL: what writes it and what an instruction sees of it (R19). -/

namespace Sys2Proof.Machine

@[simp] theorem State.advance_fl (s : State) (op : Byte) : (s.advance op).fl = s.fl := by
  obtain ⟨n, e⟩ := s.advance_eq_setPc op
  rw [e, State.setPc_fl]

/-- What an instruction writes to FL: nothing, or the write of HLT or of CMP. -/
theorem ExecEffect.fl_cases {i : Instr} {s t : State} (effect : ExecEffect s i t) :
    (i ≠ .hlt ∧ t.fl = s.fl) ∨ (i = .hlt ∧ t.fl = flClearRunning s.fl) ∨
    (∃ ra rb va vb, i = .cmp ra rb ∧ t.fl = flCompare s.fl va vb) := by
  cases effect with
  | hlt => exact .inr (.inl ⟨rfl, rfl⟩)
  | cmp va vb => exact .inr (.inr ⟨_, _, va, vb, rfl, rfl⟩)
  | fault hi _ => exact .inl ⟨hi, rfl⟩
  | branch hi _ => exact .inl ⟨(by rintro rfl; cases hi), rfl⟩
  | pushFault | push | popFault | pop | prn | ldi | mul => exact .inl ⟨nofun, rfl⟩

theorem unknownOpcode_fl {op : Byte} {s t : State} (h : unknownOpcode op s = .next t) : t.fl = flClearRunning s.fl := by
  rw [unknownOpcode_eq] at h
  cases h
  simp

/-- A step that changes FL has fetched HLT, CMP or an unmapped byte. -/
theorem fetched_of_step_fl_ne {s t : State} (h : step s = .next t) (changed : t.fl ≠ s.fl) :
    ∃ op, s.ram.read s.pc = .ok op ∧ (op = Opcode.cmp ∨ op = Opcode.hlt ∨ dispatch op = none) := by
  rcases step_cases h with ⟨_, rfl⟩ | ⟨_, _, rfl⟩ | ⟨i, _, hp, hi, effect⟩ | ⟨_, hp, hd, _⟩
  · exact absurd rfl changed
  · exact absurd rfl changed
  · refine ⟨_, s.ram.read_nat hp, ?_⟩
    have opcode := opcode_of_assemble hi
    rcases effect.fl_cases with ⟨_, kept⟩ | ⟨rfl, _⟩ | ⟨ra, rb, _, _, rfl, _⟩
    · exact absurd kept changed
    · exact .inr (.inl opcode.symm)
    · exact .inl opcode.symm
  · exact ⟨_, s.ram.read_nat hp, .inr (.inr hd)⟩

/-- An event that changes FL is a reset, or a run start in status HALTED. -/
theorem event_of_take_fl_ne {s : State} {e : Event} (changed : (s.take e).fl ≠ s.fl) :
    e = .reset ∨ (e = .runStart ∧ s.status = .halted) := by
  cases e with
  | reset => exact .inl rfl
  | load bytes =>
    rcases load_cases s bytes with e | ⟨m, _, e⟩ <;> simp [State.take, e] at changed
  | runStart =>
    by_cases hs : s.status = .halted
    · exact .inr ⟨rfl, hs⟩
    · simp [State.take, runStart_of_not_halted hs] at changed

/-- The second state is the first with some other FL. -/
def DiffersInFl (s u : State) : Prop := ∃ g, u = s.setFl g

theorem differsInFl_congruence : Congruence DiffersInFl where
  pc := by rintro _ _ ⟨g, rfl⟩; rfl
  ram := by rintro _ _ ⟨g, rfl⟩; rfl
  setX := by rintro _ _ i v ⟨g, rfl⟩; exact ⟨g, rfl⟩
  setByte := by rintro _ _ a v ⟨g, rfl⟩; exact ⟨g, rfl⟩
  setPc := by rintro _ _ n ⟨g, rfl⟩; exact ⟨g, rfl⟩
  setIr := by rintro _ _ b ⟨g, rfl⟩; exact ⟨g, rfl⟩
  mapFl := by rintro _ _ φ ⟨g, rfl⟩; exact ⟨φ g, rfl⟩
  emit := by rintro _ _ v ⟨g, rfl⟩; exact ⟨g, rfl⟩
  addReport := by rintro _ _ op n ⟨g, rfl⟩; exact ⟨g, rfl⟩
  takeFault := by rintro _ _ f ⟨g, rfl⟩; exact ⟨g, rfl⟩

/-- Of FL an instruction sees EQUAL only: with any other FL of the same bit 0 it answers the same but for FL. -/
theorem exec_setFl {i : Instr} {s t : State} {f : Byte} (equal : f.getLsbD 0 = s.fl.getLsbD 0)
    (h : exec i s = .next t) : ∃ g, exec i (s.setFl f) = .next (t.setFl g) := by
  obtain ⟨t', _, ht, hw, g, rfl⟩ := exec_related differsInFl_congruence (i := i) ⟨f, rfl⟩ equal
    (by rintro k _ _ _ _ ⟨g, rfl⟩; rfl)
  cases ht.symm.trans h
  exact ⟨g, hw⟩

/-- Settles O37: the writers by the effects of an instruction, of a step and of an event, the one reader by
noninterference. -/
theorem flagWritersAndReaders : Obligations.FlagWritersAndReaders := by
  refine ⟨fun i s t h => ?_, fun op s t h => unknownOpcode_fl h ▸ flClearRunning_bits s.fl,
    fun s hs => runStart_of_halted hs ▸ flSetRunning_bits s.fl, fun s e => event_of_take_fl_ne,
    fun s t => fetched_of_step_fl_ne, fun i s t f => exec_setFl⟩
  rcases (ExecEffect.of_exec h).fl_cases with ⟨hi, kept⟩ | ⟨rfl, written⟩ | ⟨ra, rb, va, vb, rfl, written⟩
  · cases i with
    | hlt => exact absurd rfl hi
    | cmp ra rb => exact fun b _ => congrArg (BitVec.getLsbD · b) kept
    | push | pop | prn | jmp | jne | jeq | ldi | mul => exact kept
  · exact written ▸ flClearRunning_bits s.fl
  · exact fun b hb => written ▸ getLsbD_flCompare_of_le s.fl va vb hb

end Sys2Proof.Machine
end

section
/-! PROOF. The registers an instruction writes and reads (R16). -/

namespace Sys2Proof.Machine

/-- A register that R16 does not list as written holds its value, also through a fault. -/
theorem ExecEffect.x_of_not_written {i : Instr} {s t : State} (effect : ExecEffect s i t) {k : Nat}
    (hk : writesRegister i k = false) : t.x k = s.x k := by
  cases effect with
  | fault | hlt | prn | branch | cmp => rfl
  | pushFault | push => simp_all [writesRegister]
  | popFault | pop => simp_all [writesRegister]
  | ldi | mul => simp_all [writesRegister]

/-- The second state is the first with another register file, in which only register `k` may hold another value. -/
def DiffersInRegister (k : Nat) (s u : State) : Prop := ∃ m, u = s.setReg m ∧ RegsKeptBut [k] s u

theorem RegsKeptBut.setX {ds : List Nat} {s u : State} (h : RegsKeptBut ds s u) (i : Nat) (v : Byte) :
    RegsKeptBut ds (s.setX i v) (u.setX i v) := by
  intro j hj hd
  simp only [State.setX_x, h j hj hd]

theorem differsInRegister_setX (k : Nat) (s : State) (v : Byte) : DiffersInRegister k s (s.setX k v) :=
  ⟨_, rfl, fun j _ hj => by simp [List.ne_of_not_mem_cons hj]⟩

theorem differsInRegister_congruence (k : Nat) : Congruence (DiffersInRegister k) where
  pc := by rintro _ _ ⟨m, rfl, _⟩; rfl
  ram := by rintro _ _ ⟨m, rfl, _⟩; rfl
  setX := by rintro _ _ i v ⟨m, rfl, kept⟩; exact ⟨m.poke i v, rfl, kept.setX i v⟩
  setByte := by rintro _ _ a v ⟨m, rfl, kept⟩; exact ⟨m, rfl, kept⟩
  setPc := by rintro _ _ n ⟨m, rfl, kept⟩; exact ⟨m, rfl, kept⟩
  setIr := by rintro _ _ b ⟨m, rfl, kept⟩; exact ⟨m, rfl, kept⟩
  mapFl := by rintro _ _ φ ⟨m, rfl, kept⟩; exact ⟨m, rfl, kept⟩
  emit := by rintro _ _ v ⟨m, rfl, kept⟩; exact ⟨m, rfl, kept⟩
  addReport := by rintro _ _ op n ⟨m, rfl, kept⟩; exact ⟨m, rfl, kept⟩
  takeFault := by rintro _ _ f ⟨m, rfl, kept⟩; exact ⟨m, rfl, kept⟩

/-- Settles O38: the writes by the effects of an instruction, the reads by noninterference. -/
theorem registerReadsAndWrites : Obligations.RegisterReadsAndWrites := by
  refine ⟨fun i s t k h _ hk => (ExecEffect.of_exec h).x_of_not_written hk, fun i s k v _ unread => ?_⟩
  have reads : ∀ j, j < 8 → readsRegister i s j = true → ∀ s' u', DiffersInRegister k s' u' → u'.x j = s'.x j := by
    rintro j hj read s' u' ⟨_, _, kept⟩
    have hne : j ≠ k := by rintro rfl; exact Bool.false_ne_true (unread.symm.trans read)
    exact kept j hj (by simpa using hne)
  obtain ⟨t, _, ht, hu, m, rfl, kept⟩ :=
    exec_related (differsInRegister_congruence k) (differsInRegister_setX k s v) rfl reads
  exact ⟨t, _, ht, hu, rfl, rfl, ⟨rfl, rfl, rfl⟩, ⟨rfl, rfl⟩, kept⟩

end Sys2Proof.Machine
end

section
/-! PROOF. The streams OUT and DIAG and the register IR (R25, R29, R30): who appends to OUT, that neither stream and no
IR of an earlier cycle is read, that the streams only grow, and the text of the sink. -/

namespace Sys2Proof.Machine

/-! ### OUT is written by PRN only -/

theorem ExecEffect.out_cases {i : Instr} {s t : State} (effect : ExecEffect s i t) :
    t.out = s.out ∨ ∃ r, i = .prn r ∧ s.pc + 1 < 256 ∧ r < 8 ∧ t.out = s.out ++ [s.x r] := by
  cases effect with
  | prn hp hr => exact .inr ⟨_, rfl, hp, hr, rfl⟩
  | fault | hlt | pushFault | push | popFault | pop | branch | ldi | mul | cmp => exact .inl rfl

@[simp] theorem State.advance_out (s : State) (op : Byte) : (s.advance op).out = s.out := by
  obtain ⟨n, e⟩ := s.advance_eq_setPc op
  rw [e, State.setPc_out]

theorem unknownOpcode_out {op : Byte} {s t : State} (h : unknownOpcode op s = .next t) : t.out = s.out := by
  rw [unknownOpcode_eq] at h
  cases h
  simp

/-- Settles O40: of the cases of a step only the effect of PRN changes OUT, and PRN was decoded from the bytes at PC. -/
theorem onlyPrnWritesOut : Obligations.OnlyPrnWritesOut := by
  intro s t h changed
  rcases step_cases h with ⟨_, rfl⟩ | ⟨_, _, rfl⟩ | ⟨i, hs, hp, hi, effect⟩ | ⟨_, _, _, e⟩
  · exact absurd rfl changed
  · exact absurd rfl changed
  · rcases effect.out_cases with kept | ⟨r, rfl, hp1, hr, appended⟩
    · exact absurd kept changed
    · obtain ⟨opcode, rfl⟩ := assemble_prn hi
      exact ⟨hs, (s.ram.read_nat hp).trans (congrArg _ opcode), _, s.ram.read_nat hp1, hr, appended⟩
  · exact absurd (unknownOpcode_out e) changed

/-! ### Noninterference of the streams -/

/-- The state with other streams. -/
def State.withStreams (s : State) (o : List Byte) (d : List Report) : State := { s with out := o, diag := d }

/-- Both states have appended the same things since they began, the first from the streams of `s₀`, the second from `o`
and `d`, and nothing else distinguishes them. -/
def AppendedAlike (s₀ : State) (o : List Byte) (d : List Report) (t w : State) : Prop :=
  ∃ o' d', t.out = s₀.out ++ o' ∧ t.diag = s₀.diag ++ d' ∧ w = t.withStreams (o ++ o') (d ++ d')

section
variable (s₀ : State) (o : List Byte) (d : List Report)

theorem appendedAlike_start : AppendedAlike s₀ o d s₀ (s₀.withStreams o d) :=
  ⟨[], [], by simp, by simp, by simp⟩

theorem AppendedAlike.emit {t w : State} (v : Byte) (h : AppendedAlike s₀ o d t w) :
    AppendedAlike s₀ o d (t.emit v) (w.emit v) := by
  obtain ⟨o', d', ho, hd, rfl⟩ := h
  exact ⟨o' ++ [v], d', by simp [ho], hd, by simp [State.withStreams, State.emit]⟩

theorem AppendedAlike.addReport {t w : State} (op : Byte) (n : Nat) (h : AppendedAlike s₀ o d t w) :
    AppendedAlike s₀ o d (t.addReport op n) (w.addReport op n) := by
  obtain ⟨o', d', ho, hd, rfl⟩ := h
  exact ⟨o', d' ++ [⟨op, n⟩], ho, by simp [hd], by simp [State.withStreams, State.addReport]⟩

theorem appendedAlike_congruence : Congruence (AppendedAlike s₀ o d) where
  pc := by rintro _ _ ⟨o', d', _, _, rfl⟩; rfl
  ram := by rintro _ _ ⟨o', d', _, _, rfl⟩; rfl
  setX := by rintro _ _ i v ⟨o', d', ho, hd, rfl⟩; exact ⟨o', d', ho, hd, rfl⟩
  setByte := by rintro _ _ a v ⟨o', d', ho, hd, rfl⟩; exact ⟨o', d', ho, hd, rfl⟩
  setPc := by rintro _ _ n ⟨o', d', ho, hd, rfl⟩; exact ⟨o', d', ho, hd, rfl⟩
  setIr := by rintro _ _ b ⟨o', d', ho, hd, rfl⟩; exact ⟨o', d', ho, hd, rfl⟩
  mapFl := by rintro _ _ φ ⟨o', d', ho, hd, rfl⟩; exact ⟨o', d', ho, hd, rfl⟩
  emit := AppendedAlike.emit s₀ o d
  addReport := AppendedAlike.addReport s₀ o d
  takeFault := by rintro _ _ f ⟨o', d', ho, hd, rfl⟩; exact ⟨o', d', ho, hd, rfl⟩

theorem step_appendedAlike (s : State) : NextRelated (AppendedAlike s o d) (step s) (step (s.withStreams o d)) := by
  have start := appendedAlike_start s o d
  have status : (s.withStreams o d).status = s.status := rfl
  by_cases hs : s.status = .running
  · rw [step_of_running hs, step_of_running (status ▸ hs)]
    exact cycle_related (appendedAlike_congruence s o d) start rfl (by rintro _ _ _ ⟨_, _, _, _, rfl⟩; rfl)
  · rw [step_of_not_running hs, step_of_not_running (status ▸ hs)]
    exact ⟨_, _, rfl, rfl, start⟩

end

/-- Settles O41, by noninterference of a step. -/
theorem streamsAreNeverRead : Obligations.StreamsAreNeverRead := by
  intro s t o d h
  obtain ⟨t', _, ht, hw, o', d', ho, hd, rfl⟩ := step_appendedAlike o d s
  cases ht.symm.trans h
  exact ⟨o', d', ho, hd, hw⟩

/-! ### IR between cycles -/

/-- Settles O42: the fetch overwrites IR, and nothing before it reads it. -/
theorem irBetweenCyclesIsNeverRead : Obligations.IrBetweenCyclesIsNeverRead := by
  intro s b hs hp
  have status : (s.setIr b).status = s.status := rfl
  have fetch : fetchOpcode.run (s.setIr b) = fetchOpcode.run s :=
    (fetchOpcode_ok (s := s.setIr b) hp).trans (fetchOpcode_ok hp).symm
  rw [step_of_running hs, step_of_running (status ▸ hs), cycle, cycle, fetch]

/-! ### The streams over a run -/

theorem run_succ_next {n : Nat} {s t : State} (h : Sys2Proof.core.run (n + 1) s = .next t) :
    ∃ u, step s = .next u ∧ Sys2Proof.core.run n u = .next t := by
  obtain ⟨u, hu⟩ := exists_step s
  exact ⟨u, hu, run_succ n hu ▸ h⟩

/-- Settles O45, by induction on the number of steps. -/
theorem streamsOnlyGrow : Obligations.StreamsOnlyGrow := by
  intro n
  induction n with
  | zero =>
    intro s t h
    cases h
    exact ⟨List.prefix_rfl, List.prefix_rfl⟩
  | succ n ih =>
    intro s t h
    obtain ⟨u, hstep, hrun⟩ := run_succ_next h
    obtain ⟨o', d', ho, hd, _⟩ := streamsAreNeverRead s u [] [] hstep
    obtain ⟨out, diag⟩ := ih u t hrun
    exact ⟨.trans ⟨o', ho.symm⟩ out, .trans ⟨d', hd.symm⟩ diag⟩

/-! ### The sink (R29, D14) -/

theorem isDigit_digitChar {n : Nat} (h : n < 10) : (digitChar n).isDigit = true := by
  have digits : ∀ n < 10, (digitChar n).isDigit = true := by decide
  exact digits n h

theorem digitChar_value {n : Nat} (h : n < 10) : (digitChar n).toNat - 48 = n := by
  have values : ∀ n < 10, (digitChar n).toNat - 48 = n := by decide
  exact values n h

theorem digitChar_ne_zero {n : Nat} (h : n < 10) (h0 : n ≠ 0) : digitChar n ≠ '0' := by
  intro e
  have value := digitChar_value h
  rw [e] at value
  exact h0 value.symm

/-- Settles O57: a numeral of one, two or three digits, by the size of the byte. -/
theorem sinkLineIsTheDecimalNumeral : Obligations.SinkLineIsTheDecimalNumeral := by
  intro v
  have hv := v.isLt
  have ones : v.toNat % 10 < 10 := Nat.mod_lt _ (by decide)
  have tens : v.toNat / 10 % 10 < 10 := Nat.mod_lt _ (by decide)
  have hundreds : v.toNat / 100 < 10 := by omega
  by_cases h100 : 100 ≤ v.toNat
  · refine ⟨[digitChar (v.toNat / 100), digitChar (v.toNat / 10 % 10), digitChar (v.toNat % 10)], ?_, nofun, ?_, ?_, ?_⟩
    · have h10 : 10 ≤ v.toNat := by omega
      simp [sinkLine, h100, h10]
    · simp [isDigit_digitChar, ones, tens, hundreds]
    · simpa using digitChar_ne_zero hundreds (by omega)
    · simp only [List.foldl, digitChar_value, ones, tens, hundreds]
      omega
  · by_cases h10 : 10 ≤ v.toNat
    · refine ⟨[digitChar (v.toNat / 10 % 10), digitChar (v.toNat % 10)], by simp [sinkLine, h100, h10], nofun, ?_, ?_, ?_⟩
      · simp [isDigit_digitChar, ones, tens]
      · simpa using digitChar_ne_zero tens (by omega)
      · simp only [List.foldl, digitChar_value, ones, tens]
        omega
    · refine ⟨[digitChar (v.toNat % 10)], by simp [sinkLine, h100, h10], nofun, ?_, fun h => absurd rfl h, ?_⟩
      · simp [isDigit_digitChar, ones]
      · simp only [List.foldl, digitChar_value, ones]
        omega

end Sys2Proof.Machine
end

section
/-! PROOF. The guarded store (R35 to R39): what it reads as after a write, and that canonical form makes equal contents
equal data; the guarded accesses of the engine leave the state alone when they read or fail. -/

namespace Sys2Proof.Machine

/-! ### Reads through a write (R36, R37) -/

section
variable {m : Store} (mem : Memory m)

theorem Memory.read_natCast_eq_ok {n : Nat} {v : Byte} :
    mem.read (n : Int) = .ok v ↔ n < m.size ∧ mem.peek n = v := by
  by_cases h : n < m.size
  · simp [mem.read_nat h, h]
  · have bad : ¬ m.valid n := fun valid => h (Int.ofNat_lt.mp valid.2)
    simp [mem.read_of_not_valid bad, h]

theorem Memory.read_poke_self {a : Int} (v : Byte) (ha : m.valid a) : (mem.poke a.toNat v).read a = .ok v := by
  rw [Memory.read_of_valid _ ha, Memory.peek_poke, if_pos rfl]

theorem Memory.read_poke_of_ne {a c : Int} (v : Byte) (ha : m.valid a) (hc : c ≠ a) :
    (mem.poke a.toNat v).read c = mem.read c := by
  by_cases valid : m.valid c
  · have other : c.toNat ≠ a.toNat := by omega
    rw [Memory.read_of_valid _ valid, Memory.read_of_valid _ valid, Memory.peek_poke, if_neg other]
  · rw [Memory.read_of_not_valid _ valid, Memory.read_of_not_valid _ valid]

/-- A write of a byte to an address of the store is read back, and every other address reads as before. -/
theorem Memory.write_then_read {a v : Int} (ha : m.valid a) (hv : 0 ≤ v ∧ v ≤ 255) :
    ∃ mem', mem.write a v = .ok mem' ∧ (∃ b : Byte, mem'.read a = .ok b ∧ b.int = v) ∧
      ∀ c : Int, c ≠ a → mem'.read c = mem.read c := by
  rcases mem.write_cases a v with ⟨_, b, hb, e⟩ | ⟨_, bad, _⟩ | ⟨bad, _⟩
  · exact ⟨_, e, ⟨b, mem.read_poke_self b ha, hb⟩, fun c hc => mem.read_poke_of_ne b ha hc⟩
  · exact absurd hv bad
  · exact absurd ha bad

end

/-- A RAM read never changes the state (R36). -/
theorem memRead_cases {s : State} (a : Int) :
    (Store.valid .ram a ∧ (memRead a).run s = .ok (s.ram.peek a.toNat) s) ∨
    (¬ Store.valid .ram a ∧ (memRead a).run s = .error (.outOfBounds .ram a) s) := by
  rcases s.ram.read_cases a with ⟨h, e⟩ | ⟨h, e⟩
  · exact .inl ⟨h, by simp only [EStateM.run, memRead, e]⟩
  · exact .inr ⟨h, by simp only [EStateM.run, memRead, e]⟩

/-- Settles O1: the bounds check decides the answer, and either answer carries the state the read began in. -/
theorem guardedReadContract : Obligations.GuardedReadContract := by
  refine ⟨fun m mem a => ⟨fun out => ?_, fun valid => mem.read_of_valid valid⟩, fun s a => ⟨?_, ?_⟩⟩
  · have bad : ¬ m.valid a := by rintro ⟨_, _⟩; omega
    exact mem.read_of_not_valid bad
  · rcases memRead_cases (s := s) a with ⟨_, e⟩ | ⟨_, e⟩
    · exact .inl ⟨_, e⟩
    · exact .inr ⟨_, e⟩
  · rcases readReg_cases (s := s) a with ⟨_, e⟩ | ⟨_, e⟩
    · exact .inl ⟨_, e⟩
    · exact .inr ⟨_, e⟩

/-- Settles O2: the address check and the value check decide which case a write is in, and an engine write that raises
does so in the state it was called in. -/
theorem guardedStoreContract : Obligations.GuardedStoreContract := by
  refine ⟨fun m mem a v => mem.write_then_read, fun m mem a v ha bad => ?_,
    fun m mem a v bad => ⟨mem.read_of_not_valid bad, mem.write_of_not_valid bad⟩,
    fun m mem a ha => mem.clear.read_of_valid ha,
    fun s t a v f raised => (memWrite_error_iff.mp raised).2.symm,
    fun s t a v f raised => (writeReg_error_iff.mp raised).2.symm⟩
  exact mem.write_of_bad_value ha (by omega)

/-! ### Canonical form (R35, log entry 4) -/

theorem canonicalFrom_cons {lo size a : Nat} {v : Byte} {rest : List Host.Cell} :
    canonicalFrom lo size ((a, v) :: rest) = true ↔
      lo ≤ a ∧ a < size ∧ v ≠ 0 ∧ canonicalFrom (a + 1) size rest = true := by
  simp [canonicalFrom, and_assoc]

theorem cellAt_cons_self (a : Nat) (v : Byte) (rest : List Host.Cell) : cellAt a ((a, v) :: rest) = v := if_pos rfl

theorem cellAt_cons_of_ne {a b : Nat} (v : Byte) (rest : List Host.Cell) (h : a ≠ b) :
    cellAt a ((b, v) :: rest) = cellAt a rest := if_neg h

/-- The head of a canonical list is its lowest nonzero cell. -/
theorem head_le_of_cellAt_ne_zero {lo size a b : Nat} {v : Byte} {rest : List Host.Cell}
    (hc : canonicalFrom lo size ((b, v) :: rest) = true) (h : cellAt a ((b, v) :: rest) ≠ 0) : b ≤ a := by
  obtain ⟨_, hb, hv, tail⟩ := canonicalFrom_cons.mp hc
  have fromHead : canonicalFrom b size ((b, v) :: rest) = true := canonicalFrom_cons.mpr ⟨Nat.le_refl b, hb, hv, tail⟩
  exact Nat.le_of_not_lt fun below => h (cellAt_of_lt fromHead below)

/-- Canonical lists that hold the same byte at every address are the same list. -/
theorem eq_of_cellAt_eq {lo lo' size : Nat} {xs ys : List Host.Cell} (hx : canonicalFrom lo size xs = true)
    (hy : canonicalFrom lo' size ys = true) (h : ∀ n, cellAt n xs = cellAt n ys) : xs = ys := by
  induction xs generalizing lo lo' ys with
  | nil =>
    cases ys with
    | nil => rfl
    | cons d ys =>
      obtain ⟨_, _, hw, _⟩ := canonicalFrom_cons.mp hy
      exact absurd ((h d.1).trans (cellAt_cons_self d.1 d.2 ys)).symm hw
  | cons c xs ih =>
    obtain ⟨a, v⟩ := c
    obtain ⟨_, _, hv, hxs⟩ := canonicalFrom_cons.mp hx
    have atA : cellAt a ys = v := (h a).symm.trans (cellAt_cons_self a v xs)
    cases ys with
    | nil => exact absurd atA.symm hv
    | cons d ys =>
      obtain ⟨b, w⟩ := d
      obtain ⟨_, _, hw, hys⟩ := canonicalFrom_cons.mp hy
      have atB : cellAt b ((a, v) :: xs) = w := (h b).trans (cellAt_cons_self b w ys)
      obtain rfl : a = b :=
        Nat.le_antisymm (head_le_of_cellAt_ne_zero hx (atB ▸ hw)) (head_le_of_cellAt_ne_zero hy (atA ▸ hv))
      obtain rfl : v = w := (cellAt_cons_self a v xs).symm.trans atB
      have tails : ∀ n, cellAt n xs = cellAt n ys := by
        intro n
        by_cases hn : n = a
        · subst hn
          rw [cellAt_of_lt hxs n.lt_succ_self, cellAt_of_lt hys n.lt_succ_self]
        · simpa only [cellAt_cons_of_ne _ _ hn] using h n
      rw [ih hxs hys tails]

/-- Settles O3: the cells past the end of a store in canonical form hold 0, so the lists agree everywhere. -/
theorem canonicalContentsAreEqualData : Obligations.CanonicalContentsAreEqualData := by
  rintro m ⟨xs⟩ ⟨ys⟩ hx hy reads
  congr 1
  refine eq_of_cellAt_eq hx hy fun n => ?_
  by_cases hn : n < m.size
  · have same := reads n ⟨Int.natCast_nonneg n, Int.ofNat_lt.mpr hn⟩
    rw [Memory.read_nat _ hn, Memory.read_nat _ hn] at same
    exact Except.ok.inj same
  · rw [cellAt_of_size_le hx (Nat.le_of_not_lt hn), cellAt_of_size_le hy (Nat.le_of_not_lt hn)]

end Sys2Proof.Machine
end

section
/-! PROOF. RAM as the machine uses it: PUSH alone writes it (R42), and a byte it stores is what the next cycle fetches
(R54, R140). -/

namespace Sys2Proof.Machine

theorem Byte.toNat_sub_one {b : Byte} (h : b ≠ 0) : (b - 1).toNat = b.toNat - 1 := by
  have := Byte.int_sub_one h
  simp only [Byte.int] at this
  omega

/-! ### The one writer of RAM (R42) -/

theorem execPush_ram_cases {r : Nat} {s t : State} (h : execPush r s = .next t) :
    t.ram = s.ram ∨ (s.sp ≠ 0 ∧ ∃ v, t.ram = s.ram.poke (s.sp - 1).toNat v) := by
  rcases execPush_cases r s with ⟨_, e⟩ | ⟨_, _, e⟩ | ⟨_, _, _, e⟩ | ⟨_, h0, _, e⟩ <;> cases e.symm.trans h
  · exact .inl rfl
  · exact .inl rfl
  · exact .inl rfl
  · exact .inr ⟨h0, _, rfl⟩

/-- What an instruction writes to RAM: nothing, or the one byte of a PUSH that did not raise. -/
theorem exec_ram_cases {i : Instr} {s t : State} (h : exec i s = .next t) :
    t.ram = s.ram ∨ ∃ r, i = .push r ∧ s.sp ≠ 0 ∧ ∃ v, t.ram = s.ram.poke (s.sp - 1).toNat v := by
  cases ExecEffect.of_exec h with
  | push v => exact (execPush_ram_cases h).imp_right fun written => ⟨_, rfl, written⟩
  | fault | hlt | pushFault | popFault | pop | prn | branch | ldi | mul | cmp => exact .inl rfl

@[simp] theorem State.advance_ram (s : State) (op : Byte) : (s.advance op).ram = s.ram := by
  obtain ⟨n, e⟩ := s.advance_eq_setPc op
  rw [e, State.setPc_ram]

theorem unknownOpcode_ram {op : Byte} {s t : State} (h : unknownOpcode op s = .next t) : t.ram = s.ram := by
  rw [unknownOpcode_eq] at h
  cases h
  simp

theorem step_of_assemble {s : State} {i : Instr} (hs : s.status = .running) (hp : s.pc < 256)
    (hi : assemble (s.ram.peek s.pc) (s.ram.peek (s.pc + 1)) (s.ram.peek (s.pc + 2)) = some i) :
    step s = exec i (s.setIr (s.ram.peek s.pc)) :=
  (step_of_running hs).trans (cycle_of_assemble hp hi)

/-- What a step writes to RAM: nothing, or the byte one below SP when it ran the PUSH at PC. -/
theorem step_ram_cases {s t : State} (h : step s = .next t) :
    t.ram = s.ram ∨ (s.status = .running ∧ s.ram.read s.pc = .ok Opcode.push ∧ s.sp ≠ 0 ∧
      ∃ v, t.ram = s.ram.poke (s.sp - 1).toNat v) := by
  rcases step_cases h with ⟨_, rfl⟩ | ⟨_, _, rfl⟩ | ⟨i, hs, hp, hi, _⟩ | ⟨_, _, _, e⟩
  · exact .inl rfl
  · exact .inl rfl
  · rcases exec_ram_cases ((step_of_assemble hs hp hi).symm.trans h) with kept | ⟨r, rfl, written⟩
    · exact .inl kept
    · have opcode : s.ram.peek s.pc = Opcode.push := (opcode_of_assemble hi).symm
      exact .inr ⟨hs, s.ram.read_natCast_eq_ok.mpr ⟨hp, opcode⟩, written⟩
  · exact .inl ((unknownOpcode_ram e).trans (s.setIr_ram _))

/-- Settles O39: of the cases of a step only the store of PUSH changes RAM, and it changes the addressed byte only. -/
theorem onlyPushWritesRam : Obligations.OnlyPushWritesRam := by
  intro s t a h changed
  rcases step_ram_cases h with kept | ⟨hs, opcode, h0, v, written⟩
  · exact absurd (congrArg (Memory.read · a) kept) changed
  · refine ⟨hs, opcode, ?_⟩
    rw [Byte.int_sub_one h0]
    rw [written] at changed
    exact Decidable.byContradiction fun other =>
      changed (s.ram.read_poke_of_ne v (valid_ram (s.sp - 1).isLt) other)

/-! ### The next fetch (R54, R140) -/

/-- No instruction writes IR (R25). -/
theorem ExecEffect.ir_eq {i : Instr} {s t : State} (effect : ExecEffect s i t) : t.ir = s.ir := by
  cases effect <;> rfl

@[simp] theorem State.advance_ir (s : State) (op : Byte) : (s.advance op).ir = s.ir := by
  obtain ⟨n, e⟩ := s.advance_eq_setPc op
  rw [e, State.setPc_ir]

theorem unknownOpcode_ir {op : Byte} {s t : State} (h : unknownOpcode op s = .next t) : t.ir = s.ir := by
  rw [unknownOpcode_eq] at h
  cases h
  simp

/-- A step that fetches leaves IR holding the byte that was at PC (R78). -/
theorem ir_of_step {s t : State} (h : step s = .next t) (hs : s.status = .running) (hp : s.pc < 256) :
    t.ir = s.ram.peek s.pc := by
  rcases step_cases h with ⟨stopped, _⟩ | ⟨_, past, _⟩ | ⟨_, _, _, _, effect⟩ | ⟨_, _, _, e⟩
  · exact absurd hs stopped
  · omega
  · exact effect.ir_eq
  · exact unknownOpcode_ir e

theorem step_of_push_at_pc {s : State} {r : Byte} (hs : s.status = .running)
    (opcode : s.ram.read s.pc = .ok Opcode.push) (operand : s.ram.read ((s.pc + 1 : Nat) : Int) = .ok r) :
    step s = execPush r.toNat (s.setIr Opcode.push) := by
  obtain ⟨hp, op⟩ := s.ram.read_natCast_eq_ok.mp opcode
  obtain ⟨_, rfl⟩ := s.ram.read_natCast_eq_ok.mp operand
  have decoded := assemble_of_dispatch (b1 := s.ram.peek (s.pc + 1)) (b2 := s.ram.peek (s.pc + 2)) dispatch_push
  rw [step_of_assemble hs hp (op.symm ▸ decoded), op]
  rfl

/-- A step of a PUSH of a register other than SP, with SP not 0: the machine runs on after the PUSH, and the byte one
below the old SP is the register's value (R92). -/
theorem step_push_stores {s : State} {r : Byte} (hs : s.status = .running)
    (opcode : s.ram.read s.pc = .ok Opcode.push) (operand : s.ram.read ((s.pc + 1 : Nat) : Int) = .ok r)
    (hr : r.toNat < 7) (h0 : s.sp ≠ 0) :
    ∃ t, step s = .next t ∧ t.status = .running ∧ t.pc = s.pc + 2 ∧
      t.ram.peek (s.sp - 1).toNat = s.x r.toNat := by
  have hp1 : s.pc + 1 < 256 := (s.ram.read_natCast_eq_ok.mp operand).1
  rw [step_of_push_at_pc hs opcode operand]
  rcases execPush_cases r.toNat (s.setIr Opcode.push) with ⟨past, _⟩ | ⟨_, zero, _⟩ | ⟨_, _, bad, _⟩ | ⟨_, _, _, e⟩
  · exact absurd hp1 (Nat.not_lt.mpr past)
  · exact absurd zero h0
  · omega
  · refine ⟨_, e, hs, rfl, ?_⟩
    simp [Nat.ne_of_lt hr]

/-- Settles O43: the store goes to the address the PUSH advances PC to, and the next step fetches from there. -/
theorem storeIsSeenByTheNextFetch : Obligations.StoreIsSeenByTheNextFetch := by
  intro s r hs opcode operand hr hsp
  have h0 : s.sp ≠ 0 := by
    intro zero
    rw [zero] at hsp
    cases hsp
  obtain ⟨t, ht, running, pc, stored⟩ := step_push_stores hs opcode operand hr h0
  obtain ⟨u, hu⟩ := exists_step t
  have target : (s.sp - 1).toNat = t.pc := by
    rw [Byte.toNat_sub_one h0, hsp, pc]
    rfl
  have inside : t.pc < 256 := target ▸ (s.sp - 1).isLt
  exact ⟨t, u, ht, hu, (ir_of_step hu running inside).trans (target ▸ stored)⟩

end Sys2Proof.Machine
end

section
/-! PROOF. The encoding (R57 to R69): the fields of an opcode byte, the ten mapped bytes, the decoder and the encoder as
inverses of each other, and where in RAM the bytes of an instruction lie. -/

namespace Sys2Proof.Machine

/-! ### The fields of the opcode byte (R58) -/

theorem operandCount_eq_div (op : Byte) : operandCount op = op.toNat / 64 := by
  have := op.isLt
  calc operandCount op
    _ = op.toNat >>> 6 % 4 := Nat.and_two_pow_sub_one_eq_mod (op.toNat >>> 6) 2
    _ = op.toNat / 64 % 4 := by rw [Nat.shiftRight_eq_div_pow]
    _ = op.toNat / 64 := by omega

theorem instructionId_eq_mod (op : Byte) : instructionId op = op.toNat % 16 :=
  Nat.and_two_pow_sub_one_eq_mod op.toNat 4

/-- Shifting bit `k` down and masking with 1 tests that bit. -/
theorem shifted_bit_test (op : Byte) (k : Nat) : ((op >>> k) &&& 0b1#8 == 1#8) = op.getLsbD k := by
  rw [BitVec.and_one_eq_setWidth_ofBool_getLsbD, BitVec.getLsbD_ushiftRight, Nat.add_zero]
  cases op.getLsbD k <;> rfl

/-- Settles O48: a mask of the low bits is a remainder, a shift a division, and a one-bit mask tests its bit. -/
theorem decoderFieldsOfTheOpcodeByte : Obligations.DecoderFieldsOfTheOpcodeByte :=
  fun op => ⟨operandCount_eq_div op, shifted_bit_test op 5, shifted_bit_test op 4, instructionId_eq_mod op⟩

/-! ### The mapped bytes (R65 to R67) -/

/-- The ten opcode bytes of R65's table. -/
def mappedOpcodes : List Byte := [0x01, 0x45, 0x46, 0x47, 0x54, 0x55, 0x56, 0x82, 0xA2, 0xA7]

theorem opcode_mem_mappedOpcodes (i : Instr) : i.opcode ∈ mappedOpcodes := by
  cases i <;> simp [Instr.opcode, mappedOpcodes]

theorem dispatch_isSome_of_mem : ∀ op ∈ mappedOpcodes, (dispatch op).isSome = true := by decide

theorem dispatch_isSome_iff_mem (op : Byte) : (dispatch op).isSome = true ↔ op ∈ mappedOpcodes := by
  refine ⟨fun mapped => ?_, dispatch_isSome_of_mem op⟩
  obtain ⟨mk, hmk⟩ := Option.isSome_iff_exists.mp mapped
  exact opcode_of_dispatch hmk 0 0 ▸ opcode_mem_mappedOpcodes (mk 0 0)

/-- Settles O49: a dispatched byte is the opcode of the instruction it gives, and each opcode's own entry is known. -/
theorem tenOpcodesAreMapped : Obligations.TenOpcodesAreMapped :=
  ⟨dispatch_isSome_iff_mem, fun _ _ =>
    ⟨assemble_of_dispatch dispatch_hlt, assemble_of_dispatch dispatch_push, assemble_of_dispatch dispatch_pop,
      assemble_of_dispatch dispatch_prn, assemble_of_dispatch dispatch_jmp, assemble_of_dispatch dispatch_jne,
      assemble_of_dispatch dispatch_jeq, assemble_of_dispatch dispatch_ldi, assemble_of_dispatch dispatch_mul,
      assemble_of_dispatch dispatch_cmp⟩⟩

/-- Settles O51, by running the decoder on each of the six words. -/
theorem sampleWordsDecode : Obligations.SampleWordsDecode := by
  refine ⟨?_, ?_, ?_, ?_, ?_, ?_⟩ <;> decide

/-! ### Decoding what was encoded -/

section
variable {op : Byte} {r q : Nat} {rest : List Byte}

/-- Format R (R60): the operand byte gives back the register number it was made from. -/
theorem decode_register {make : Nat → Instr} (hd : dispatch op = some (fun b _ => make b.toNat))
    (hc : operandCount op = 1) (hr : fitsOperandByte r = true) :
    decode (op :: registerByte r :: rest) = .ok (make r, rest) := by
  rw [decode_one hd hc, registerByte_toNat hr]

/-- Format RI (R60). -/
theorem decode_register_byte {make : Nat → Byte → Instr} {imm : Byte}
    (hd : dispatch op = some (fun b imm => make b.toNat imm)) (hc : operandCount op = 2)
    (hr : fitsOperandByte r = true) : decode (op :: registerByte r :: imm :: rest) = .ok (make r imm, rest) := by
  rw [decode_two hd hc, registerByte_toNat hr]

/-- Format RR (R60). -/
theorem decode_register_register {make : Nat → Nat → Instr}
    (hd : dispatch op = some (fun a b => make a.toNat b.toNat)) (hc : operandCount op = 2)
    (hw : (fitsOperandByte r && fitsOperandByte q) = true) :
    decode (op :: registerByte r :: registerByte q :: rest) = .ok (make r q, rest) := by
  obtain ⟨hr, hq⟩ := Bool.and_eq_true_iff.mp hw
  rw [decode_two hd hc, registerByte_toNat hr, registerByte_toNat hq]

end

/-- Settles O46, by the instruction: each is of format Z, R, RI or RR. -/
theorem decodeOfEncodeIsTheInstruction : Obligations.DecodeOfEncodeIsTheInstruction := by
  intro i rest h
  cases i with
  | hlt => exact decode_zero dispatch_hlt operandCount_hlt
  | push r => exact decode_register dispatch_push operandCount_push h
  | pop r => exact decode_register dispatch_pop operandCount_pop h
  | prn r => exact decode_register dispatch_prn operandCount_prn h
  | jmp r => exact decode_register dispatch_jmp operandCount_jmp h
  | jne r => exact decode_register dispatch_jne operandCount_jne h
  | jeq r => exact decode_register dispatch_jeq operandCount_jeq h
  | ldi r imm => exact decode_register_byte dispatch_ldi operandCount_ldi h
  | mul ra rb => exact decode_register_register dispatch_mul operandCount_mul h
  | cmp ra rb => exact decode_register_register dispatch_cmp operandCount_cmp h

/-! ### Encoding what was decoded -/

/-- A decoding takes the opcode byte and as many operand bytes as it counts, and nothing else, off the front. -/
theorem exists_dispatch_of_decode {bs rest : List Byte} {i : Instr} (h : decode bs = .ok (i, rest)) :
    ∃ op mk b1 b2, dispatch op = some mk ∧ i = mk b1 b2 ∧ bs = op :: ([b1, b2].take (operandCount op) ++ rest) := by
  cases bs with
  | nil => cases h
  | cons op tail =>
    cases hd : dispatch op with
    | none => rw [decode_of_dispatch_none hd] at h; cases h
    | some mk =>
      refine ⟨op, mk, ?_⟩
      simp only [decode, hd] at h
      split at h
      · next count => cases h; exact ⟨0, 0, hd, rfl, by rw [count]; rfl⟩
      · next b1 _ count => cases h; exact ⟨b1, 0, hd, rfl, by rw [count]; rfl⟩
      · next b1 b2 _ count => cases h; exact ⟨b1, b2, hd, rfl, by rw [count]; rfl⟩
      · cases h

/-- What dispatch makes of two bytes is well formed, and its encoding is the opcode and the bytes it counts (R63). -/
theorem wf_and_encode_of_dispatch {op : Byte} {mk : Byte → Byte → Instr} (h : dispatch op = some mk) (b1 b2 : Byte) :
    (mk b1 b2).wf = true ∧ encode (mk b1 b2) = op :: [b1, b2].take (operandCount op) := by
  have hmem := mem_tables_of_dispatch h
  simp only [ordinaryTable, aluTable, List.mem_cons, List.not_mem_nil, Prod.mk.injEq, or_false] at hmem
  rcases hmem with (⟨rfl, rfl⟩ | ⟨rfl, rfl⟩ | ⟨rfl, rfl⟩ | ⟨rfl, rfl⟩ | ⟨rfl, rfl⟩ | ⟨rfl, rfl⟩ | ⟨rfl, rfl⟩ |
    ⟨rfl, rfl⟩) | ⟨rfl, rfl⟩ | ⟨rfl, rfl⟩ <;>
  exact ⟨by simp [Instr.wf], by simp only [encode, Instr.operandBytes, registerByte_of_toNat]; rfl⟩

/-- Settles O47: the decoder splits the bytes as the encoder joins them. -/
theorem encodeOfDecodeIsTheBytes : Obligations.EncodeOfDecodeIsTheBytes := by
  intro bs rest i h
  obtain ⟨op, mk, b1, b2, hd, rfl, rfl⟩ := exists_dispatch_of_decode h
  obtain ⟨wf, encoded⟩ := wf_and_encode_of_dispatch hd b1 b2
  exact ⟨wf, by rw [encoded, List.cons_append]⟩

/-! ### Layout (R57) -/

/-- The decoder's fields are those of the instruction's own shape, for every instruction (R62). -/
theorem opcodeFieldsAgree (i : Instr) : Laws.OpcodeFieldsAgree.Statement i := by
  cases i with
  | hlt => exact Laws.OpcodeFieldsAgree.hlt
  | push r => exact Laws.OpcodeFieldsAgree.push r
  | pop r => exact Laws.OpcodeFieldsAgree.pop r
  | prn r => exact Laws.OpcodeFieldsAgree.prn r
  | jmp r => exact Laws.OpcodeFieldsAgree.jmp r
  | jne r => exact Laws.OpcodeFieldsAgree.jne r
  | jeq r => exact Laws.OpcodeFieldsAgree.jeq r
  | ldi r imm => exact Laws.OpcodeFieldsAgree.ldi r imm
  | mul ra rb => exact Laws.OpcodeFieldsAgree.mul ra rb
  | cmp ra rb => exact Laws.OpcodeFieldsAgree.cmp ra rb

theorem length_operandBytes (i : Instr) : i.operandBytes.length = i.opcode.toNat / 64 := by
  obtain ⟨_, count, _, _⟩ := opcodeFieldsAgree i
  rw [← count, operandCount_eq_div]

theorem length_operandBytes_le (i : Instr) : i.operandBytes.length ≤ 2 := by
  cases i <;> simp [Instr.operandBytes]

/-- Byte `k` from PC is the one RAM reads at PC plus `k`. -/
theorem read_of_bytesFrom {s : State} {k : Nat} {b : Byte} (h : s.bytesFrom[k]? = some b) :
    s.ram.read ((s.pc + k : Nat) : Int) = .ok b := by
  simp only [State.bytesFrom, List.getElem?_map, Option.map_eq_some_iff, List.getElem?_eq_some_iff,
    List.length_range, List.getElem_range] at h
  obtain ⟨_, ⟨inside, rfl⟩, rfl⟩ := h
  exact s.ram.read_nat (Nat.add_lt_of_lt_sub' inside)

theorem bytesFrom_of_encode {s : State} {i : Instr} {rest : List Byte} (h : decode s.bytesFrom = .ok (i, rest))
    {k : Nat} {b : Byte} (hb : (encode i)[k]? = some b) : s.bytesFrom[k]? = some b := by
  obtain ⟨_, bytes⟩ := encodeOfDecodeIsTheBytes _ _ _ h
  obtain ⟨inside, _⟩ := List.getElem?_eq_some_iff.mp hb
  rw [← bytes, List.getElem?_append_left inside, hb]

/-- Settles O50: the length by the decoder's count of the opcode, each operand byte by the encoder, their addresses by
the other direction of the round trip. -/
theorem instructionLayout : Obligations.InstructionLayout := by
  refine ⟨fun i => ⟨i.operandBytes, rfl, length_operandBytes i, length_operandBytes_le i⟩, fun i h => ?_,
    fun s i rest h k b hb => read_of_bytesFrom (bytesFrom_of_encode h hb)⟩
  cases i with
  | hlt => rfl
  | push r | pop r | prn r | jmp r | jne r | jeq r | ldi r _ => exact ⟨registerByte r, registerByte_toNat h, rfl⟩
  | mul ra rb | cmp ra rb =>
    obtain ⟨ha, hb⟩ := Bool.and_eq_true_iff.mp h
    exact ⟨registerByte ra, registerByte rb, registerByte_toNat ha, registerByte_toNat hb, rfl⟩

end Sys2Proof.Machine
end

section
/-! PROOF. A register number of 8 or more: the fault of each instruction that accesses it (R63, R113). -/

namespace Sys2Proof.Machine

section
variable {s : State} {r q : Nat}

theorem execPrn_of_bad_register (hp : s.pc + 1 < 256) (hr : 8 ≤ r) :
    execPrn r s = .next (s.takeFault (.outOfBounds .reg r)) := by
  rcases execPrn_cases r s with ⟨past, _⟩ | ⟨_, _, e⟩ | ⟨_, good, _⟩
  · omega
  · exact e
  · omega

theorem execPop_of_bad_register (hp : s.pc + 1 < 256) (hr : 8 ≤ r) :
    execPop r s = .next (s.takeFault (.outOfBounds .reg r)) := by
  rcases execPop_cases r s _ rfl with ⟨past, _⟩ | ⟨_, _, e⟩ | ⟨_, good, _⟩ | ⟨_, good, _⟩
  · omega
  · exact e
  all_goals omega

theorem execJmp_of_bad_register (hp : s.pc + 1 < 256) (hr : 8 ≤ r) :
    execJmp r s = .next (s.takeFault (.outOfBounds .reg r)) := by
  rcases execJmp_cases r s with ⟨past, _⟩ | ⟨_, _, e⟩ | ⟨_, good, _⟩
  · omega
  · exact e
  · omega

theorem execLdi_of_bad_register (imm : Byte) (hp : s.pc + 2 < 256) (hr : 8 ≤ r) :
    execLdi r imm s = .next (s.takeFault (.outOfBounds .reg r)) := by
  rcases execLdi_cases r imm s with ⟨past, _⟩ | ⟨_, past, _⟩ | ⟨_, _, e⟩ | ⟨_, good, _⟩
  · omega
  · omega
  · exact e
  · omega

/-- Of two bad numbers the first is reported (D8). -/
theorem execMul_of_bad_first (hp : s.pc + 2 < 256) (hr : 8 ≤ r) :
    execMul r q s = .next (s.takeFault (.outOfBounds .reg r)) := by
  rcases execMul_cases r q s _ rfl with
    ⟨past, _⟩ | ⟨_, past, _⟩ | ⟨_, _, e⟩ | ⟨_, good, _⟩ | ⟨_, good, _⟩ | ⟨_, good, _⟩
  · omega
  · omega
  · exact e
  all_goals omega

theorem execMul_of_bad_second (hp : s.pc + 2 < 256) (hq : q < 8) (hr : 8 ≤ r) :
    execMul q r s = .next (s.takeFault (.outOfBounds .reg r)) := by
  rcases execMul_cases q r s _ rfl with
    ⟨past, _⟩ | ⟨_, past, _⟩ | ⟨_, bad, _⟩ | ⟨_, _, _, e⟩ | ⟨_, _, good, _⟩ | ⟨_, _, good, _⟩
  · omega
  · omega
  · omega
  · exact e
  all_goals omega

/-- Of two bad numbers the first is reported (D8). -/
theorem execCmp_of_bad_first (hp : s.pc + 2 < 256) (hr : 8 ≤ r) :
    execCmp r q s = .next (s.takeFault (.outOfBounds .reg r)) := by
  rcases execCmp_cases r q s with ⟨past, _⟩ | ⟨_, past, _⟩ | ⟨_, _, e⟩ | ⟨_, good, _⟩ | ⟨_, good, _⟩
  · omega
  · omega
  · exact e
  all_goals omega

theorem execCmp_of_bad_second (hp : s.pc + 2 < 256) (hq : q < 8) (hr : 8 ≤ r) :
    execCmp q r s = .next (s.takeFault (.outOfBounds .reg r)) := by
  rcases execCmp_cases q r s with ⟨past, _⟩ | ⟨_, past, _⟩ | ⟨_, bad, _⟩ | ⟨_, _, _, e⟩ | ⟨_, _, good, _⟩
  · omega
  · omega
  · omega
  · exact e
  · omega

end

/-- With nothing latched, taking a fault latches it (R114). -/
theorem takeFault_of_unlatched {s : State} (h : s.fault = none) (f : Fault) : s.takeFault f = s.setFault (some f) := by
  simp only [State.takeFault, h, Option.none_or]

/-- Settles O34: each form's operand reads succeed, and the register access that follows raises in the state the
instruction began in. -/
theorem badRegisterNumberFaults : Obligations.BadRegisterNumberFaults := by
  intro s r q imm unlatched hp hr
  have hp1 : s.pc + 1 < 256 := Nat.lt_of_succ_lt hp
  rw [← takeFault_of_unlatched unlatched]
  exact ⟨execPrn_of_bad_register hp1 hr, execPop_of_bad_register hp1 hr, execJmp_of_bad_register hp1 hr,
    fun clear => (execJne_taken clear).trans (execJmp_of_bad_register hp1 hr),
    fun set => (execJeq_taken set).trans (execJmp_of_bad_register hp1 hr),
    execLdi_of_bad_register imm hp hr, execMul_of_bad_first hp hr, execCmp_of_bad_first hp hr,
    fun hq => execMul_of_bad_second hp hq hr, fun hq => execCmp_of_bad_second hp hq hr⟩

end Sys2Proof.Machine
end

section
/-! PROOF. The cycle (R75 to R83): when a step is a cycle, the fault of the fetch, the instruction that the bytes at PC
spell, and the report of an unmapped byte. -/

namespace Sys2Proof.Machine

/-- Settles O12, by the cases of a step. -/
theorem everyStepHasANextState : Obligations.EveryStepHasANextState := exists_step

/-- Settles O11: the condition is status RUNNING. -/
theorem cycleOnlyWhileRunning : Obligations.CycleOnlyWhileRunning := fun _ =>
  ⟨fun running => step_of_running (status_running.mpr running),
    fun stopped => step_of_not_running fun running => stopped (status_running.mp running)⟩

/-- Settles O10: the fetch raises before IR is written, and in status RUNNING the latch is empty. -/
theorem fetchPastEndFaults : Obligations.FetchPastEndFaults := by
  intro s hs past
  rw [step_of_running hs, cycle_of_size_le past, takeFault_of_unlatched (status_running.mp hs).2]

/-! ### The instruction at PC (R57, R77) -/

theorem eq_of_encode_eq {i j : Instr} (hi : i.wf = true) (hj : j.wf = true) (h : encode i = encode j) : i = j := by
  have decoded := decodeOfEncodeIsTheInstruction i [] hi
  rw [h, decodeOfEncodeIsTheInstruction j [] hj] at decoded
  exact (Prod.mk.inj (Except.ok.inj decoded)).1.symm

/-- Bytes that agree as far as the opcode counts operands spell the same instruction (R57). -/
theorem operands_congr {op b1 b2 c1 c2 : Byte} {mk : Byte → Byte → Instr} (h : dispatch op = some mk)
    (first : 0 < operandCount op → b1 = c1) (second : 1 < operandCount op → b2 = c2) : mk b1 b2 = mk c1 c2 := by
  have counted : [b1, b2].take (operandCount op) = [c1, c2].take (operandCount op) := by
    match operandCount op, first, second with
    | 0, _, _ => rfl
    | 1, first, _ => rw [first Nat.one_pos]; rfl
    | n + 2, first, second => rw [first (by omega), second (by omega)]
  obtain ⟨wf, encoded⟩ := wf_and_encode_of_dispatch h b1 b2
  obtain ⟨wf', encoded'⟩ := wf_and_encode_of_dispatch h c1 c2
  exact eq_of_encode_eq wf wf' (by rw [encoded, encoded', counted])

section
variable {s : State} {i : Instr} {rest : List Byte}

/-- The bytes of the instruction that the bytes from PC decode to lie in RAM from PC on (R57). -/
theorem peek_of_encode (h : decode s.bytesFrom = .ok (i, rest)) {k : Nat} {b : Byte} (hb : (encode i)[k]? = some b) :
    s.pc + k < 256 ∧ s.ram.peek (s.pc + k) = b :=
  s.ram.read_natCast_eq_ok.mp (read_of_bytesFrom (bytesFrom_of_encode h hb))

/-- What the bytes from PC to the end of RAM decode to is what the cycle assembles (log entry 5). -/
theorem assemble_of_decode_bytesFrom (h : decode s.bytesFrom = .ok (i, rest)) :
    s.pc < 256 ∧ assemble (s.ram.peek s.pc) (s.ram.peek (s.pc + 1)) (s.ram.peek (s.pc + 2)) = some i := by
  obtain ⟨op, mk, b1, b2, hd, rfl, _⟩ := exists_dispatch_of_decode h
  obtain ⟨_, encoded⟩ := wf_and_encode_of_dispatch hd b1 b2
  obtain ⟨hp, opcode⟩ := peek_of_encode (k := 0) (b := op) h (by rw [encoded]; rfl)
  have first : 0 < operandCount op → s.ram.peek (s.pc + 1) = b1 := fun count =>
    (peek_of_encode h (by simp [encoded, count])).2
  have second : 1 < operandCount op → s.ram.peek (s.pc + 2) = b2 := fun count =>
    (peek_of_encode h (by simp [encoded, count])).2
  rw [Nat.add_zero] at hp opcode
  exact ⟨hp, by rw [opcode, assemble_of_dispatch hd, operands_congr hd first second]⟩

theorem wf_of_assemble {op b1 b2 : Byte} (h : assemble op b1 b2 = some i) : i.wf = true := by
  obtain ⟨mk, hd, rfl⟩ := Option.map_eq_some_iff.mp h
  exact (wf_and_encode_of_dispatch hd b1 b2).1

end

/-- Settles O8: clause (2) is the cycle by the byte at PC, and a decoding of clause (1) is an assembly of clause (2). -/
theorem stepRunsDecodedInstruction : Obligations.StepRunsDecodedInstruction := by
  have runs : ∀ (s : State) (i : Instr), s.status = .running → s.pc < 256 →
      assemble (s.ram.peek s.pc) (s.ram.peek (s.pc + 1)) (s.ram.peek (s.pc + 2)) = some i →
      i.wf = true ∧ i.opcode = s.ram.peek s.pc ∧ step s = exec i (s.setIr i.opcode) := by
    intro s i hs hp hi
    have opcode := opcode_of_assemble hi
    exact ⟨wf_of_assemble hi, opcode, opcode.symm ▸ step_of_assemble hs hp hi⟩
  refine ⟨fun s i rest hs h => ?_, runs⟩
  obtain ⟨hp, hi⟩ := assemble_of_decode_bytesFrom h
  obtain ⟨wf, _, stepped⟩ := runs s i hs hp hi
  exact ⟨wf, stepped⟩

/-! ### An unmapped byte (R83) -/

/-- The advance by the bits of the opcode byte (R61, R84). -/
theorem State.advance_eq (s : State) (op : Byte) :
    s.advance op = s.setPc (if op.getLsbD 4 then s.pc else s.pc + 1 + op.toNat / 64) := by
  have bit : setsPc op = op.getLsbD 4 := shifted_bit_test op 4
  cases h : op.getLsbD 4 with
  | true => exact s.advance_of_setsPc (bit.trans h)
  | false =>
    rw [s.advance_of_not_setsPc (bit.trans h), instrLength, operandCount_eq_div, ← Nat.add_assoc]
    rfl

theorem step_of_unmapped {s : State} {op : Byte} (hs : s.status = .running) (hop : s.ram.read s.pc = .ok op)
    (hd : dispatch op = none) :
    step s = .next ((((s.setIr op).addReport op s.pc).setFl (flClearRunning s.fl)).setPc
      (if op.getLsbD 4 then s.pc else s.pc + 1 + op.toNat / 64)) := by
  obtain ⟨hp, rfl⟩ := s.ram.read_natCast_eq_ok.mp hop
  rw [step_of_running hs, cycle_of_unmapped hp hd, unknownOpcode_eq, State.advance_eq]
  rfl

/-- Settles O9: the next state is a chain of updates of IR, DIAG, FL and PC, which leaves the other fields alone. -/
theorem unmappedOpcodeReportsAndHalts : Obligations.UnmappedOpcodeReportsAndHalts := by
  intro s op hs hop hd
  obtain ⟨_, unlatched⟩ := status_running.mp hs
  obtain ⟨stopped, kept⟩ := flClearRunning_bits s.fl
  exact ⟨_, step_of_unmapped hs hop hd, rfl, status_halted.mpr ⟨stopped, unlatched⟩, stopped, kept, rfl, rfl, rfl,
    unlatched, fun _ => rfl, fun _ _ _ => rfl⟩

end Sys2Proof.Machine
end

section
/-! PROOF. Operand bytes past the end of RAM (R81, R82, R86): the first of them is the one that is reported, and a
branch that is not taken reads none (D11). -/

namespace Sys2Proof.Machine

/-- In `s` the instruction is a branch that is not taken (R98, R99). -/
def notTaken (s : State) : Instr → Bool
  | .jne _ => s.equal
  | .jeq _ => !s.equal
  | .hlt | .push _ | .pop _ | .prn _ | .jmp _ | .ldi _ _ | .mul _ _ | .cmp _ _ => false

/-- The fault of the first operand byte past the end of RAM: the byte at 256, or at PC+1 when that lies further on. -/
def pastRamFault (s : State) : Fault := .outOfBounds .ram ((max 256 (s.pc + 1) : Nat) : Int)

section
variable {s : State} {i j : Instr}

/-- Whether a branch is taken is a matter of its opcode and EQUAL. -/
theorem notTaken_iff : notTaken s i = true ↔
    (i.opcode = Opcode.jne ∧ s.equal = true) ∨ (i.opcode = Opcode.jeq ∧ s.equal = false) := by
  cases i <;> simp [notTaken, Instr.opcode]

theorem exec_of_notTaken (h : notTaken s i = true) : exec i s = .next (s.setPc (s.pc + 2)) := by
  cases i with
  | jne r => exact execJne_skip h
  | jeq r => exact execJeq_skip (by simpa [notTaken] using h)
  | hlt | push | pop | prn | jmp | ldi | mul | cmp => cases h

theorem pastRamFault_of_lt (hp : s.pc < 256) : pastRamFault s = .outOfBounds .ram 256 := by
  rw [pastRamFault, Nat.max_eq_left hp]
  rfl

theorem operandCount_opcode (i : Instr) : operandCount i.opcode = i.operandBytes.length := by
  rw [operandCount_eq_div, length_operandBytes]

/-! ### The reads that raise (R81, R82) -/

theorem operandFault_one (past : 256 ≤ s.pc + 1) : operandFault s 1 = pastRamFault s := by
  rw [pastRamFault, Nat.max_eq_right past]

theorem operandFault_two (inside : s.pc + 1 < 256) (past : 256 ≤ s.pc + 2) : operandFault s 2 = pastRamFault s := by
  have address : max 256 (s.pc + 1) = s.pc + 2 := by omega
  rw [pastRamFault, address]

theorem fetchOperand_past (past : 256 ≤ s.pc + 1) : (fetchOperand 1).run s = .error (pastRamFault s) s := by
  rw [fetchOperand_bad past, ← operandFault_one past]

theorem fetchAluOperands_past (past : 256 ≤ s.pc + 2) : fetchAluOperands.run s = .error (pastRamFault s) s := by
  by_cases inside : s.pc + 1 < 256
  · rw [fetchAluOperands_bad_second inside past, ← operandFault_two inside past]
  · have past1 := Nat.le_of_not_lt inside
    rw [fetchAluOperands_bad_first past1, ← operandFault_one past1]

theorem execLdi_past (r : Nat) (imm : Byte) (past : 256 ≤ s.pc + 2) :
    execLdi r imm s = .next (s.takeFault (pastRamFault s)) := by
  rcases execLdi_cases r imm s with ⟨past1, e⟩ | ⟨inside, _, e⟩ | ⟨inside, _⟩ | ⟨inside, _⟩
  · rw [e, operandFault_one past1]
  · rw [e, operandFault_two inside past]
  · omega
  · omega

theorem execJmp_past (r : Nat) (past : 256 ≤ s.pc + 1) : execJmp r s = .next (s.takeFault (pastRamFault s)) :=
  runHandler_error (run_bind_error (fetchOperand_past past))

/-- An instruction that reads operand bytes, one of which lies past the end of RAM, faults at the first such byte with
nothing else changed (R86): its operand reads are its first lines. -/
theorem exec_of_operand_past (reads : 0 < i.operandBytes.length) (past : 256 ≤ s.pc + i.operandBytes.length)
    (taken : notTaken s i = false) : exec i s = .next (s.takeFault (pastRamFault s)) := by
  cases i with
  | hlt => exact absurd reads (Nat.lt_irrefl 0)
  | push | pop | prn => exact runHandler_error (run_bind_error (fetchOperand_past past))
  | jmp r => exact execJmp_past r past
  | jne r => exact (execJne_taken taken).trans (execJmp_past r past)
  | jeq r => exact (execJeq_taken (by simpa [notTaken] using taken)).trans (execJmp_past r past)
  | ldi r imm => exact execLdi_past r imm past
  | mul | cmp => exact runHandler_error (run_bind_error (fetchAluOperands_past past))

/-- The same for an opcode byte inside RAM and an empty latch: the record names the byte at 256 (R113). -/
theorem exec_truncated (unlatched : s.fault = none) (hp : s.pc < 256) (past : 256 ≤ s.pc + i.operandBytes.length)
    (taken : notTaken s i = false) : exec i s = .next (s.setFault (some (.outOfBounds .ram 256))) := by
  rw [exec_of_operand_past (by omega) past taken, takeFault_of_unlatched unlatched, pastRamFault_of_lt hp]

/-- Instructions of one opcode, both with an operand byte past the end of RAM, do the same: they fault there, or they
are both branches that are not taken. -/
theorem exec_eq_of_operand_past (opcode : i.opcode = j.opcode) (reads : 0 < i.operandBytes.length)
    (past : 256 ≤ s.pc + i.operandBytes.length) : exec i s = exec j s := by
  have same : notTaken s i = notTaken s j := by rw [Bool.eq_iff_iff, notTaken_iff, notTaken_iff, opcode]
  have length : i.operandBytes.length = j.operandBytes.length := by
    rw [length_operandBytes, length_operandBytes, opcode]
  cases taken : notTaken s i with
  | false =>
    rw [exec_of_operand_past reads past taken,
      exec_of_operand_past (length ▸ reads) (length ▸ past) (same ▸ taken)]
  | true => rw [exec_of_notTaken taken, exec_of_notTaken (same ▸ taken)]

end

/-- Settles O14: with every counted operand byte inside RAM the two instructions are the same, and with one past the end
both fault there or read none. -/
theorem operandsPastRamAreNeverUsed : Obligations.OperandsPastRamAreNeverUsed := by
  intro s op b1 b2 c1 c2 i j hi hj first second
  have opcode : i.opcode = j.opcode := (opcode_of_assemble hi).trans (opcode_of_assemble hj).symm
  by_cases past : 0 < operandCount op ∧ 256 ≤ s.pc + operandCount op
  · rw [← opcode_of_assemble hi, operandCount_opcode] at past
    obtain ⟨reads, past⟩ := past
    exact exec_eq_of_operand_past opcode reads past
  · obtain ⟨mk, hd, rfl⟩ := Option.map_eq_some_iff.mp hi
    rw [assemble_of_dispatch hd] at hj
    cases hj
    rw [operands_congr hd (fun _ => first (by omega)) (fun _ => second (by omega))]

/-- Settles O33: at 255 the first operand byte lies at 256, at 254 the second. -/
theorem truncatedInstructionFaults : Obligations.TruncatedInstructionFaults := by
  intro s unlatched
  constructor
  · intro hp r q imm
    have faults : ∀ i : Instr, 1 ≤ i.operandBytes.length → notTaken s i = false →
        exec i s = .next (s.setFault (some (.outOfBounds .ram 256))) :=
      fun i reads => exec_truncated unlatched (by omega) (by omega)
    exact ⟨faults (.push r) (Nat.le_refl 1) rfl, faults (.pop r) (Nat.le_refl 1) rfl,
      faults (.prn r) (Nat.le_refl 1) rfl, faults (.jmp r) (Nat.le_refl 1) rfl,
      fun clear => faults (.jne r) (Nat.le_refl 1) clear,
      fun set => faults (.jeq r) (Nat.le_refl 1) (congrArg not set), faults (.ldi r imm) (Nat.le_succ 1) rfl,
      faults (.mul r q) (Nat.le_succ 1) rfl, faults (.cmp r q) (Nat.le_succ 1) rfl⟩
  · intro hp r q imm
    have faults : ∀ i : Instr, 2 ≤ i.operandBytes.length → notTaken s i = false →
        exec i s = .next (s.setFault (some (.outOfBounds .ram 256))) :=
      fun i reads => exec_truncated unlatched (by omega) (by omega)
    exact ⟨faults (.ldi r imm) (Nat.le_refl 2) rfl, faults (.mul r q) (Nat.le_refl 2) rfl,
      faults (.cmp r q) (Nat.le_refl 2) rfl⟩

/-- Settles O58: the step runs the instruction at PC with IR written; a branch that is not taken counts one operand, so
it lies at 255 and goes on to 257. -/
theorem stepWithOperandsPastRam : Obligations.StepWithOperandsPastRam := by
  intro s op hs hop mapped past
  obtain ⟨(hp : s.pc < 256), rfl⟩ := s.ram.read_natCast_eq_ok.mp hop
  obtain ⟨mk, hd⟩ := Option.isSome_iff_exists.mp mapped
  obtain ⟨i, hi⟩ : ∃ i, assemble (s.ram.peek s.pc) (s.ram.peek (s.pc + 1)) (s.ram.peek (s.pc + 2)) = some i :=
    ⟨_, assemble_of_dispatch hd⟩
  have opcode := opcode_of_assemble hi
  have skips := notTaken_iff (s := s.setIr (s.ram.peek s.pc)) (i := i)
  rw [opcode] at skips
  rw [step_of_assemble hs hp hi]
  refine ⟨fun skipped => ?_, fun reads => ?_⟩
  · have count : operandCount (s.ram.peek s.pc) = 1 := by
      rcases skipped with ⟨e, _⟩ | ⟨e, _⟩ <;> rw [e] <;> rfl
    have at255 : s.pc + 2 = 257 := by omega
    rw [exec_of_notTaken (skips.mpr skipped), State.setIr_pc, at255]
  · rw [← opcode, operandCount_opcode] at past
    have unskipped := Bool.eq_false_iff.mpr fun skipped => reads (skips.mp skipped)
    exact exec_truncated (status_running.mp hs).2 hp past unskipped

end Sys2Proof.Machine
end

section
/-! PROOF. The system instructions HLT and PRN (R89, R90): what each writes and everything it leaves alone. -/

namespace Sys2Proof.Machine

theorem execPrn_of_good_register {s : State} {r : Nat} (hp : s.pc + 1 < 256) (hr : r < 8) :
    execPrn r s = .next ((s.emit (s.x r)).setPc (s.pc + 2)) := by
  rcases execPrn_cases r s with ⟨past, _⟩ | ⟨_, bad, _⟩ | ⟨_, _, e⟩
  · omega
  · omega
  · exact e

/-- Settles O16: the next state is an update of OUT and one of PC, which leave the other fields alone. -/
theorem prnAppendsRegisterValue : Obligations.PrnAppendsRegisterValue := by
  intro s r hp hr
  exact ⟨_, execPrn_of_good_register hp hr, rfl, rfl, rfl, ⟨rfl, rfl, rfl⟩, fun _ => rfl, fun _ _ _ => rfl⟩

/-- Settles O15: the next state is an update of FL, whose bits are those of `flClearRunning`, and one of PC, which leave
the other fields alone. -/
theorem hltClearsRunning : Obligations.HltClearsRunning := by
  intro s
  obtain ⟨stopped, kept⟩ := flClearRunning_bits s.fl
  exact ⟨_, execHlt_eq s, stopped, kept, rfl, rfl, rfl, ⟨rfl, rfl⟩, fun _ => rfl, fun _ _ _ => rfl⟩

end Sys2Proof.Machine
end

section
/-! PROOF. The stack instructions PUSH and POP (R91 to R95): the outcome under each condition of the rules, the effect
and the frame of each, and a PUSH followed by a POP. -/

namespace Sys2Proof.Machine

/-! ### Registers -/

theorem RegsKeptBut.refl (ds : List Nat) (s : State) : RegsKeptBut ds s s := fun _ _ _ => rfl

/-- A write to a listed register stays inside the frame. -/
theorem RegsKeptBut.setX_right {ds : List Nat} {s t : State} (h : RegsKeptBut ds s t) {i : Nat} (hi : i ∈ ds)
    (v : Byte) : RegsKeptBut ds s (t.setX i v) := by
  intro k hk hd
  have other : k ≠ i := fun e => hd (e ▸ hi)
  rw [State.setX_x, if_neg other, h k hk hd]

@[simp] theorem State.setX_sp_self (s : State) (v : Byte) : (s.setX 7 v).sp = v := s.setX_sp 7 v

theorem Byte.eq_of_int_eq {a b : Byte} (h : Byte.int a = Byte.int b) : a = b :=
  BitVec.eq_of_toNat_eq (Int.natCast_inj.mp h)

/-! ### The outcomes of PUSH and POP, by the condition of each (R92, R93) -/

section
variable {s : State} {r : Nat}

theorem execPush_of_sp_zero (hp : s.pc + 1 < 256) (h0 : s.sp = 0) :
    execPush r s = .next (s.takeFault (.invalidByteValue .reg 7 (-1))) := by
  rcases execPush_cases r s with ⟨past, _⟩ | ⟨_, _, e⟩ | ⟨_, nonzero, _⟩ | ⟨_, nonzero, _⟩
  · omega
  · exact e
  · exact absurd h0 nonzero
  · exact absurd h0 nonzero

/-- The decrement stands although the register number is bad (D8). -/
theorem execPush_of_bad_register (hp : s.pc + 1 < 256) (h0 : s.sp ≠ 0) (hr : 8 ≤ r) :
    execPush r s = .next ((s.setX 7 (s.sp - 1)).takeFault (.outOfBounds .reg r)) := by
  rcases execPush_cases r s with ⟨past, _⟩ | ⟨_, zero, _⟩ | ⟨_, _, _, e⟩ | ⟨_, _, good, _⟩
  · omega
  · exact absurd zero h0
  · exact e
  · omega

theorem execPush_of_good_register (hp : s.pc + 1 < 256) (h0 : s.sp ≠ 0) (hr : r < 8) :
    execPush r s = .next (((s.setX 7 (s.sp - 1)).setByte (s.sp - 1).toNat
      (if r = 7 then s.sp - 1 else s.x r)).setPc (s.pc + 2)) := by
  rcases execPush_cases r s with ⟨past, _⟩ | ⟨_, zero, _⟩ | ⟨_, _, bad, _⟩ | ⟨_, _, _, e⟩
  · omega
  · exact absurd zero h0
  · omega
  · rw [e, State.setX_x]

/-- The load stands although the increment raises (D8); for POP R7 the value incremented is the popped byte (D9). -/
theorem execPop_of_increment_overflow (hp : s.pc + 1 < 256) (hr : r < 8)
    (full : (if r = 7 then s.top else s.sp) = 255) :
    execPop r s = .next ((s.setX r s.top).takeFault (.invalidByteValue .reg 7 256)) := by
  rw [← setX_top_sp] at full
  rcases execPop_cases r s s.top rfl with ⟨past, _⟩ | ⟨_, bad, _⟩ | ⟨_, _, _, e⟩ | ⟨_, _, room, _⟩
  · omega
  · omega
  · exact e
  · exact absurd full room

theorem execPop_of_increment (hp : s.pc + 1 < 256) (hr : r < 8)
    (room : (if r = 7 then s.top else s.sp) ≠ 255) :
    execPop r s = .next (((s.setX r s.top).setX 7 ((if r = 7 then s.top else s.sp) + 1)).setPc (s.pc + 2)) := by
  rw [← setX_top_sp] at room ⊢
  rcases execPop_cases r s s.top rfl with ⟨past, _⟩ | ⟨_, bad, _⟩ | ⟨_, _, full, _⟩ | ⟨_, _, _, e⟩
  · omega
  · omega
  · exact absurd full room
  · exact e

end

/-- The byte POP loads is what a guarded read at SP answers. -/
theorem read_sp_eq_ok {s : State} {v : Byte} : s.ram.read s.sp.int = .ok v ↔ s.top = v :=
  s.ram.read_natCast_eq_ok.trans (and_iff_right s.sp.isLt)

/-! ### PUSH and POP that do not raise -/

/-- Settles O17: the store is the only write to RAM and SP the only register written. -/
theorem pushStoresAtDecrementedSp : Obligations.PushStoresAtDecrementedSp := by
  intro s r hp h0 hr
  have valid : Store.valid .ram (s.sp - 1).int := valid_ram (s.sp - 1).isLt
  rw [Byte.int_sub_one h0]
  refine ⟨_, execPush_of_good_register hp h0 hr, ?_, ?_, fun _ other => s.ram.read_poke_of_ne _ valid other, rfl,
    ⟨rfl, rfl, rfl⟩, ⟨rfl, rfl⟩, (RegsKeptBut.refl _ s).setX_right (by simp) _⟩
  · rw [State.setPc_sp, State.setByte_sp, State.setX_sp_self]
  · rw [State.setPc_sp, State.setByte_sp, State.setX_sp_self]
    exact s.ram.read_poke_self _ valid

/-- Settles O18: the increment of SP leaves the loaded register alone, which is another one. -/
theorem popLoadsTopAndRaisesSp : Obligations.PopLoadsTopAndRaisesSp := by
  intro s r hp hr hr7 room
  have e := execPop_of_increment (s := s) hp hr (by rwa [if_neg hr7])
  rw [if_neg hr7] at e
  refine ⟨_, e, read_sp_eq_ok.mpr ?_, ?_, rfl, ⟨rfl, rfl, rfl⟩, ⟨rfl, rfl⟩, fun _ => rfl,
    ((RegsKeptBut.refl _ s).setX_right (by simp) _).setX_right (by simp) _⟩
  · simp [hr7]
  · rw [State.setPc_sp, State.setX_sp_self, Byte.int_add_one room]

/-- Settles O19: the increment reads SP after the load, so it raises the popped byte. -/
theorem popOfSpEndsOneAboveTheByte : Obligations.PopOfSpEndsOneAboveTheByte := by
  intro s v hp hv room
  obtain rfl := read_sp_eq_ok.mp hv
  refine ⟨_, execPop_of_increment hp (by decide) room, ?_, rfl, ⟨rfl, rfl, rfl⟩, ⟨rfl, rfl⟩, fun _ => rfl,
    ((RegsKeptBut.refl _ s).setX_right (by simp) _).setX_right (by simp) _⟩
  rw [State.setPc_sp, State.setX_sp_self, Byte.int_add_one room, if_pos rfl]

/-- Settles O20: POP reads at the address PUSH stored to, and its increment undoes the decrement. -/
theorem pushThenPopCopiesAndRestoresSp : Obligations.PushThenPopCopiesAndRestoresSp := by
  intro s r q hp h0 hr hq
  obtain ⟨t, ht, tsp, stored, -, tpc, -, -, tregs⟩ := pushStoresAtDecrementedSp s r (by omega) h0 (by omega)
  have room : t.sp ≠ 255 := by
    intro full
    have := (Byte.int_range s.sp).2
    have : Byte.int 255 = 255 := rfl
    rw [full] at tsp
    omega
  obtain ⟨u, hu, loaded, usp, upc, -, -, -, uregs⟩ :=
    popLoadsTopAndRaisesSp t q (by omega) (by omega) (by omega) room
  have copied : u.x q = s.x r := by
    rw [tsp, stored, if_neg (by omega)] at loaded
    exact (Except.ok.inj loaded).symm
  have restored : u.sp = s.sp := Byte.eq_of_int_eq (by omega)
  refine ⟨t, u, ht, hu, copied, restored, by omega, fun k hk hkq => ?_⟩
  by_cases h7 : k = 7
  · exact h7 ▸ restored
  · exact (uregs k hk (by simp_all)).trans (tregs k hk (by simp [h7]))

/-! ### PUSH and POP that raise (R94) -/

/-- Settles O35: with SP 0 the decrement is refused before anything is written; with a bad number the decrement is the
one write that precedes the raise. -/
theorem pushFaults : Obligations.PushFaults := by
  intro s r unlatched hp
  refine ⟨fun h0 => ?_, fun h0 hr => ?_⟩
  · rw [← takeFault_of_unlatched unlatched]
    exact execPush_of_sp_zero hp h0
  · refine ⟨_, execPush_of_bad_register hp h0 hr, ?_, ?_, (RegsKeptBut.refl _ s).setX_right (by simp) _,
      fun _ => rfl, rfl, rfl, rfl, ⟨rfl, rfl⟩⟩
    · simp [unlatched]
    · rw [State.takeFault_sp, State.setX_sp_self, Byte.int_sub_one h0]

/-- Settles O36: the load is the one write that precedes the raise, and the value to be incremented, 255, is what SP
holds after it. -/
theorem popIncrementFaults : Obligations.PopIncrementFaults := by
  intro s r unlatched hp hr full
  refine ⟨_, execPop_of_increment_overflow hp hr full, ?_, ?_, (setX_top_sp r s.top s).trans full,
    (RegsKeptBut.refl _ s).setX_right (by simp) _, fun _ => rfl, rfl, rfl, rfl, ⟨rfl, rfl⟩⟩
  · simp [unlatched]
  · rw [State.takeFault_x, State.setX_x, if_pos rfl]

end Sys2Proof.Machine
end

section
/-! PROOF. The branches JMP, JNE and JEQ (R96 to R99): where each goes when it is taken and when it is not, and the jump
to its own address (R87). -/

namespace Sys2Proof.Machine

/-! ### A jump in one instruction -/

theorem execJmp_of_good_register {s : State} {r : Nat} (hp : s.pc + 1 < 256) (hr : r < 8) :
    execJmp r s = .next (s.setPc (s.x r).toNat) := by
  rcases execJmp_cases r s with ⟨past, _⟩ | ⟨_, bad, _⟩ | ⟨_, _, e⟩
  · omega
  · omega
  · exact e

/-- What answers an update of PC leaves everything else as it was. -/
theorem exists_next_of_setPc {s : State} {n : Nat} {o : Host.Outcome State Fault Refusal} (h : o = .next (s.setPc n)) :
    ∃ t, o = .next t ∧ t.pc = n ∧ ControlKept s t ∧ StreamsKept s t ∧ RamKept s t ∧ RegsKeptBut [] s t :=
  ⟨_, h, rfl, ⟨rfl, rfl, rfl⟩, ⟨rfl, rfl⟩, fun _ => rfl, RegsKeptBut.refl [] s⟩

/-- Settles O21: with the operand byte and the register in range JMP is an update of PC. -/
theorem jmpSetsPcToRegister : Obligations.JmpSetsPcToRegister :=
  fun _ _ hp hr => exists_next_of_setPc (execJmp_of_good_register hp hr)

/-- Settles O22: with EQUAL clear JNE is JMP; with EQUAL set it reads no operand, so PC and the operand byte may be
any. -/
theorem jneJumpsWhenEqualClear : Obligations.JneJumpsWhenEqualClear :=
  ⟨fun _ _ clear hp hr => exists_next_of_setPc ((execJne_taken clear).trans (execJmp_of_good_register hp hr)),
    fun _ _ set => exists_next_of_setPc (execJne_skip set)⟩

/-- Settles O23: with EQUAL set JEQ is JMP; with EQUAL clear it reads no operand, so PC and the operand byte may be
any. -/
theorem jeqJumpsWhenEqualSet : Obligations.JeqJumpsWhenEqualSet :=
  ⟨fun _ _ set hp hr => exists_next_of_setPc ((execJeq_taken set).trans (execJmp_of_good_register hp hr)),
    fun _ _ clear => exists_next_of_setPc (execJeq_skip clear)⟩

/-! ### A jump to its own address -/

/-- The step of a mapped opcode byte followed by an operand byte inside RAM. -/
theorem step_of_bytes_at_pc {s : State} {op b : Byte} {mk : Byte → Byte → Instr} (hs : s.status = .running)
    (hd : dispatch op = some mk) (opcode : s.ram.read s.pc = .ok op)
    (operand : s.ram.read ((s.pc + 1 : Nat) : Int) = .ok b) :
    step s = exec (mk b (s.ram.peek (s.pc + 2))) (s.setIr op) := by
  obtain ⟨hp, rfl⟩ := s.ram.read_natCast_eq_ok.mp opcode
  obtain ⟨_, rfl⟩ := s.ram.read_natCast_eq_ok.mp operand
  exact step_of_assemble hs hp (assemble_of_dispatch hd)

/-- One step of a JMP through a register that holds its own address: PC is set to what it was (R97). -/
theorem step_of_jump_to_itself {s : State} {r : Byte} (hs : s.status = .running)
    (opcode : s.ram.read s.pc = .ok Opcode.jmp) (operand : s.ram.read ((s.pc + 1 : Nat) : Int) = .ok r)
    (hr : r.toNat < 8) (target : (s.x r.toNat).toNat = s.pc) : step s = .next (s.setIr Opcode.jmp) := by
  have inside : s.pc + 1 < 256 := (s.ram.read_natCast_eq_ok.mp operand).1
  have jumped := execJmp_of_good_register (s := s.setIr Opcode.jmp) inside hr
  rw [State.setIr_x, target] at jumped
  exact (step_of_bytes_at_pc hs dispatch_jmp opcode operand).trans jumped

/-- A run never leaves a state that steps to itself. -/
theorem run_of_step_eq_self {s : State} (h : step s = .next s) (n : Nat) : Sys2Proof.core.run n s = .next s := by
  induction n with
  | zero => exact run_zero s
  | succ n ih => exact (run_succ n h).trans ih

/-- Settles O24: the first step writes IR; the state it leaves is a jump to itself again and has that IR already, so it
steps to itself. -/
theorem jumpToItselfNeverEnds : Obligations.JumpToItselfNeverEnds := by
  intro s r hs opcode operand hr target n
  have first : step s = .next (s.setIr Opcode.jmp) := step_of_jump_to_itself hs opcode operand hr target
  have again : step (s.setIr Opcode.jmp) = .next (s.setIr Opcode.jmp) :=
    step_of_jump_to_itself (s := s.setIr Opcode.jmp) hs opcode operand hr target
  exact (run_succ n first).trans (run_of_step_eq_self again n)

end Sys2Proof.Machine
end

section
/-! PROOF. LDI (R102): what it writes and everything it leaves alone. -/

namespace Sys2Proof.Machine

theorem execLdi_of_good_register {s : State} {r : Nat} (imm : Byte) (hp : s.pc + 2 < 256) (hr : r < 8) :
    execLdi r imm s = .next ((s.setX r imm).setPc (s.pc + 3)) := by
  rcases execLdi_cases r imm s with ⟨past, _⟩ | ⟨_, past, _⟩ | ⟨_, bad, _⟩ | ⟨_, _, e⟩
  · omega
  · omega
  · omega
  · exact e

/-- Settles O25: the next state is an update of one register and one of PC, which leave the other fields alone. -/
theorem ldiLoadsImmediate : Obligations.LdiLoadsImmediate := by
  intro s r imm hp hr
  refine ⟨_, execLdi_of_good_register imm hp hr, ?_, rfl, ⟨rfl, rfl, rfl⟩, ⟨rfl, rfl⟩, fun _ => rfl,
    (RegsKeptBut.refl _ s).setX_right (List.mem_singleton_self r) imm⟩
  rw [State.setPc_x, State.setX_x, if_pos rfl]

end Sys2Proof.Machine
end

section
/-! PROOF. The ALU instructions MUL and CMP (R104 to R108): the product that fits a byte and the one that does not, and
the three flags of a comparison. -/

namespace Sys2Proof.Machine

/-! ### MUL (R105, R106) -/

section
variable {s : State} {ra rb : Nat}

theorem execMul_of_product_le (hp : s.pc + 2 < 256) (ha : ra < 8) (hb : rb < 8)
    (fits : (s.x ra).toNat * (s.x rb).toNat ≤ 255) :
    execMul ra rb s = .next ((s.setX ra (s.x ra * s.x rb)).setPc (s.pc + 3)) := by
  rcases execMul_cases ra rb s _ rfl with
    ⟨past, _⟩ | ⟨_, past, _⟩ | ⟨_, bad, _⟩ | ⟨_, _, bad, _⟩ | ⟨_, _, _, above, _⟩ | ⟨_, _, _, _, e⟩
  · omega
  · omega
  · omega
  · omega
  · exact absurd fits (Nat.not_le_of_gt above)
  · exact e

theorem execMul_of_product_gt (hp : s.pc + 2 < 256) (ha : ra < 8) (hb : rb < 8)
    (above : 255 < (s.x ra).toNat * (s.x rb).toNat) :
    execMul ra rb s =
      .next (s.takeFault (.invalidByteValue .reg ra (((s.x ra).toNat * (s.x rb).toNat : Nat) : Int))) := by
  rcases execMul_cases ra rb s _ rfl with
    ⟨past, _⟩ | ⟨_, past, _⟩ | ⟨_, bad, _⟩ | ⟨_, _, bad, _⟩ | ⟨_, _, _, _, e⟩ | ⟨_, _, _, fits, _⟩
  · omega
  · omega
  · omega
  · omega
  · exact e
  · exact absurd above (Nat.not_lt_of_ge fits)

end

/-- Settles O26: MUL writes one register and PC, and the byte product is the exact one because it fits (R106). -/
theorem mulStoresExactProduct : Obligations.MulStoresExactProduct := by
  intro s ra rb hp ha hb fits
  refine ⟨_, execMul_of_product_le hp ha hb fits, ?_, rfl, ⟨rfl, rfl, rfl⟩, ⟨rfl, rfl⟩, fun _ => rfl,
    (RegsKeptBut.refl _ s).setX_right (List.mem_singleton_self ra) _⟩
  rw [State.setPc_x, State.setX_x, if_pos rfl]
  exact BitVec.toNat_mul_of_lt (Nat.lt_succ_of_le fits)

/-- Settles O27: the guarded write refuses the exact product, and no write precedes it (R105). -/
theorem mulOverflowFaults : Obligations.MulOverflowFaults := by
  intro s ra rb unlatched hp ha hb above
  rw [← takeFault_of_unlatched unlatched]
  exact execMul_of_product_gt hp ha hb above

/-! ### CMP (R107, R108) -/

/-- A bit of a flag that is set under a condition: the condition, where the flag has that bit. -/
theorem getLsbD_flag_if (p : Prop) [Decidable p] (flag : Byte) (b : Nat) :
    (if p then flag else 0).getLsbD b = (decide p && flag.getLsbD b) := by
  by_cases h : p <;> simp [h]

/-- CMP's write as the statements spell it: none of bits 2 to 0 comes from the old FL, and each is the bit of one flag
only. -/
theorem flCompare_bits (fl va vb : Byte) :
    (flCompare fl va vb).getLsbD 0 = decide (va = vb) ∧
    (flCompare fl va vb).getLsbD 2 = decide (va.toNat < vb.toNat) ∧
    (flCompare fl va vb).getLsbD 1 = decide (vb.toNat < va.toNat) := by
  simp only [flCompare, BitVec.getLsbD_or, BitVec.getLsbD_and, getLsbD_flag_if, BitVec.toNat_inj]
  simp

theorem execCmp_of_good_registers {s : State} {ra rb : Nat} (hp : s.pc + 2 < 256) (ha : ra < 8) (hb : rb < 8) :
    execCmp ra rb s = .next ((s.setFl (flCompare s.fl (s.x ra) (s.x rb))).setPc (s.pc + 3)) := by
  rcases execCmp_cases ra rb s with ⟨past, _⟩ | ⟨_, past, _⟩ | ⟨_, bad, _⟩ | ⟨_, _, bad, _⟩ | ⟨_, _, _, e⟩
  · omega
  · omega
  · omega
  · omega
  · exact e

/-- Settles O28: CMP writes FL and PC only, and FL bit by bit. -/
theorem cmpSetsExactlyOneFlag : Obligations.CmpSetsExactlyOneFlag := by
  intro s ra rb hp ha hb
  obtain ⟨equal, less, greater⟩ := flCompare_bits s.fl (s.x ra) (s.x rb)
  exact ⟨_, execCmp_of_good_registers hp ha hb, equal, less, greater, fun _ => getLsbD_flCompare_of_le s.fl _ _, rfl,
    rfl, rfl, ⟨rfl, rfl⟩, fun _ => rfl, RegsKeptBut.refl [] s⟩

end Sys2Proof.Machine
end

section
/-! PROOF. The FAULT latch and the status FAULTED (R114, R115, R129 to R133): the latch takes the first record only, and
FAULTED lasts until reset. -/

namespace Sys2Proof.Machine

/-! ### The latch -/

/-- The latch keeps the record it has (R114). -/
theorem takeFault_of_latched {s : State} {g : Fault} (h : s.fault = some g) (f : Fault) : s.takeFault f = s := by
  rw [State.takeFault, h, Option.some_or, ← h]
  rfl

/-- Settles O29: the latch is the one field written, and a record in it stays. -/
theorem takingAFaultOnlyLatches : Obligations.TakingAFaultOnlyLatches := fun s f =>
  ⟨fun unlatched => ⟨takeFault_of_unlatched unlatched f, status_takeFault s f⟩,
    fun _ latched => takeFault_of_latched latched f, s.takeFault_fl f, s.takeFault_pc f⟩

/-! ### FAULTED lasts until reset -/

theorem load_of_faulted {s : State} (h : s.status = .faulted) (bytes : List Int) : s.load bytes = (s, none) := by
  simp only [State.load, h]

theorem status_reset : State.reset.status = .halted := status_halted.mpr ⟨rfl, rfl⟩

/-- Settles O30: FAULTED is not RUNNING, so a run of any length stays; load and run start act in HALTED only, and reset
puts one state in place of every other. -/
theorem faultedIsTerminalUntilReset : Obligations.FaultedIsTerminalUntilReset := by
  intro s faulted
  have not_running : s.status ≠ .running := by simp [faulted]
  have not_halted : s.status ≠ .halted := by simp [faulted]
  exact ⟨run_of_not_running not_running, load_of_faulted faulted, runStart_of_not_halted not_halted, rfl,
    status_reset⟩

end Sys2Proof.Machine
end

section
/-! PROOF. The fault of every instruction (R113 to R118): which row of the table, if any, and what the instruction had
written before it. -/

namespace Sys2Proof.Machine

/-! ### The rows of the table -/

section
variable {s : State} {k r : Nat} {c : Bool} {f : Fault} {rows : List (Bool × Fault)}

theorem firstFault_of_holds (h : c = true) : firstFault ((c, f) :: rows) = some f := if_pos h

theorem firstFault_of_not_holds (h : c = false) : firstFault ((c, f) :: rows) = firstFault rows :=
  if_neg (by rw [h]; exact nofun)

theorem firstFault_operand_past (past : 256 ≤ s.pc + k) :
    firstFault (operandRow s k :: rows) = some (operandFault s k) := firstFault_of_holds (decide_eq_true past)

theorem firstFault_operand_inside (inside : s.pc + k < 256) :
    firstFault (operandRow s k :: rows) = firstFault rows :=
  firstFault_of_not_holds (decide_eq_false (Nat.not_le_of_lt inside))

/-- The second operand byte lies above the first, so with it inside RAM neither row holds. -/
theorem firstFault_operands_inside (inside : s.pc + 2 < 256) :
    firstFault (operandRow s 1 :: operandRow s 2 :: rows) = firstFault rows := by
  rw [firstFault_operand_inside (Nat.lt_of_succ_lt inside), firstFault_operand_inside inside]

theorem firstFault_register_bad (bad : 8 ≤ r) : firstFault (registerRow r :: rows) = some (.outOfBounds .reg r) :=
  firstFault_of_holds (decide_eq_true bad)

theorem firstFault_register_good (good : r < 8) : firstFault (registerRow r :: rows) = firstFault rows :=
  firstFault_of_not_holds (decide_eq_false (Nat.not_le_of_lt good))

/-- Once SP can be lowered, only the register number is left to check (R92). -/
theorem expectedFault_push_of_room (inside : s.pc + 1 < 256) (room : s.sp ≠ 0) :
    expectedFault (.push r) s = firstFault [registerRow r] := by
  rw [expectedFault, firstFault_operand_inside inside, firstFault_of_not_holds (beq_eq_false_iff_ne.mpr room)]

/-- Once the byte can be loaded, only the increment is left to check; it reads SP after the load (R93). -/
theorem expectedFault_pop_of_good_register (inside : s.pc + 1 < 256) (good : r < 8) : expectedFault (.pop r) s =
    firstFault [((s.setX r s.top).sp == 255, .invalidByteValue .reg 7 256)] := by
  rw [expectedFault, firstFault_operand_inside inside, firstFault_register_good good, setX_top_sp]

/-- Once both registers can be read, only the product is left to check (R106). -/
theorem expectedFault_mul_of_good_registers {ra rb : Nat} (inside : s.pc + 2 < 256) (ha : ra < 8) (hb : rb < 8) :
    expectedFault (.mul ra rb) s = firstFault [(decide (255 < (s.x ra).toNat * (s.x rb).toNat),
      .invalidByteValue .reg ra (((s.x ra).toNat * (s.x rb).toNat : Nat) : Int))] := by
  rw [expectedFault, firstFault_operands_inside inside, firstFault_register_good ha, firstFault_register_good hb]

end

/-! ### What an instruction does about the table -/

/-- The next states of an instruction, by the table of R113: no row holds and the latch is as before; or the fault of
the table is taken, in the state the instruction began in or, for PUSH and POP, after the one register write that
precedes the check that fails (D8). -/
inductive FaultOutcome (s : State) : Instr → State → Prop where
  | noFault {i : Instr} {t : State} : expectedFault i s = none → t.fault = s.fault → FaultOutcome s i t
  | fault {i : Instr} {f : Fault} : expectedFault i s = some f → FaultOutcome s i (s.takeFault f)
  | pushFault {r : Nat} {f : Fault} : expectedFault (.push r) s = some f → s.sp ≠ 0 → 8 ≤ r →
      FaultOutcome s (.push r) ((s.setX 7 (s.sp - 1)).takeFault f)
  | popFault {r : Nat} {f : Fault} : expectedFault (.pop r) s = some f → r < 8 → (s.setX r s.top).sp = 255 →
      FaultOutcome s (.pop r) ((s.setX r s.top).takeFault f)

section
variable (s : State)

theorem execPush_faultOutcome (r : Nat) : ∃ t, execPush r s = .next t ∧ FaultOutcome s (.push r) t := by
  rcases execPush_cases r s with ⟨past, e⟩ | ⟨inside, zero, e⟩ | ⟨inside, room, bad, e⟩ | ⟨inside, room, good, e⟩
  · exact ⟨_, e, .fault (firstFault_operand_past past)⟩
  · exact ⟨_, e, .fault ((firstFault_operand_inside inside).trans (firstFault_of_holds (beq_iff_eq.mpr zero)))⟩
  · refine ⟨_, e, .pushFault ?_ room bad⟩
    rw [expectedFault_push_of_room inside room, firstFault_register_bad bad]
  · refine ⟨_, e, .noFault ?_ rfl⟩
    rw [expectedFault_push_of_room inside room, firstFault_register_good good, firstFault]

theorem execPop_faultOutcome (r : Nat) : ∃ t, execPop r s = .next t ∧ FaultOutcome s (.pop r) t := by
  rcases execPop_cases r s s.top rfl with
    ⟨past, e⟩ | ⟨inside, bad, e⟩ | ⟨inside, good, full, e⟩ | ⟨inside, good, room, e⟩
  · exact ⟨_, e, .fault (firstFault_operand_past past)⟩
  · exact ⟨_, e, .fault ((firstFault_operand_inside inside).trans (firstFault_register_bad bad))⟩
  · refine ⟨_, e, .popFault ?_ good full⟩
    rw [expectedFault_pop_of_good_register inside good, firstFault_of_holds (beq_iff_eq.mpr full)]
  · refine ⟨_, e, .noFault ?_ rfl⟩
    rw [expectedFault_pop_of_good_register inside good,
      firstFault_of_not_holds (beq_eq_false_iff_ne.mpr room), firstFault]

theorem execPrn_faultOutcome (r : Nat) : ∃ t, execPrn r s = .next t ∧ FaultOutcome s (.prn r) t := by
  rcases execPrn_cases r s with ⟨past, e⟩ | ⟨inside, bad, e⟩ | ⟨inside, good, e⟩
  · exact ⟨_, e, .fault (firstFault_operand_past past)⟩
  · exact ⟨_, e, .fault ((firstFault_operand_inside inside).trans (firstFault_register_bad bad))⟩
  · exact ⟨_, e, .noFault ((firstFault_operand_inside inside).trans (firstFault_register_good good)) rfl⟩

/-- The action of JMP, for each of the three instructions that share it. -/
theorem execJmp_faultOutcome (r : Nat) {i : Instr}
    (hi : expectedFault i s = firstFault [operandRow s 1, registerRow r]) :
    ∃ t, execJmp r s = .next t ∧ FaultOutcome s i t := by
  rcases execJmp_cases r s with ⟨past, e⟩ | ⟨inside, bad, e⟩ | ⟨inside, good, e⟩
  · exact ⟨_, e, .fault (hi.trans (firstFault_operand_past past))⟩
  · refine ⟨_, e, .fault ?_⟩
    rw [hi, firstFault_operand_inside inside, firstFault_register_bad bad]
  · refine ⟨_, e, .noFault ?_ rfl⟩
    rw [hi, firstFault_operand_inside inside, firstFault_register_good good, firstFault]

theorem execJne_faultOutcome (r : Nat) : ∃ t, execJne r s = .next t ∧ FaultOutcome s (.jne r) t := by
  cases h : s.equal with
  | false => exact execJne_taken h ▸ execJmp_faultOutcome s r (by simp [expectedFault, h])
  | true => exact ⟨_, execJne_skip h, .noFault (by simp [expectedFault, h]) rfl⟩

theorem execJeq_faultOutcome (r : Nat) : ∃ t, execJeq r s = .next t ∧ FaultOutcome s (.jeq r) t := by
  cases h : s.equal with
  | false => exact ⟨_, execJeq_skip h, .noFault (by simp [expectedFault, h]) rfl⟩
  | true => exact execJeq_taken h ▸ execJmp_faultOutcome s r (by simp [expectedFault, h])

theorem execLdi_faultOutcome (r : Nat) (imm : Byte) :
    ∃ t, execLdi r imm s = .next t ∧ FaultOutcome s (.ldi r imm) t := by
  rcases execLdi_cases r imm s with ⟨past, e⟩ | ⟨inside, past, e⟩ | ⟨inside, bad, e⟩ | ⟨inside, good, e⟩
  · exact ⟨_, e, .fault (firstFault_operand_past past)⟩
  · exact ⟨_, e, .fault ((firstFault_operand_inside inside).trans (firstFault_operand_past past))⟩
  · exact ⟨_, e, .fault ((firstFault_operands_inside inside).trans (firstFault_register_bad bad))⟩
  · exact ⟨_, e, .noFault ((firstFault_operands_inside inside).trans (firstFault_register_good good)) rfl⟩

theorem execMul_faultOutcome (ra rb : Nat) : ∃ t, execMul ra rb s = .next t ∧ FaultOutcome s (.mul ra rb) t := by
  rcases execMul_cases ra rb s _ rfl with
    ⟨past, e⟩ | ⟨inside, past, e⟩ | ⟨inside, bad, e⟩ | ⟨inside, good, bad, e⟩ | ⟨inside, good, good', above, e⟩ |
    ⟨inside, good, good', fits, e⟩
  · exact ⟨_, e, .fault (firstFault_operand_past past)⟩
  · exact ⟨_, e, .fault ((firstFault_operand_inside inside).trans (firstFault_operand_past past))⟩
  · exact ⟨_, e, .fault ((firstFault_operands_inside inside).trans (firstFault_register_bad bad))⟩
  · refine ⟨_, e, .fault ?_⟩
    rw [expectedFault, firstFault_operands_inside inside, firstFault_register_good good, firstFault_register_bad bad]
  · refine ⟨_, e, .fault ?_⟩
    rw [expectedFault_mul_of_good_registers inside good good', firstFault_of_holds (decide_eq_true above)]
  · refine ⟨_, e, .noFault ?_ rfl⟩
    rw [expectedFault_mul_of_good_registers inside good good',
      firstFault_of_not_holds (decide_eq_false (Nat.not_lt_of_ge fits)), firstFault]

theorem execCmp_faultOutcome (ra rb : Nat) : ∃ t, execCmp ra rb s = .next t ∧ FaultOutcome s (.cmp ra rb) t := by
  rcases execCmp_cases ra rb s with
    ⟨past, e⟩ | ⟨inside, past, e⟩ | ⟨inside, bad, e⟩ | ⟨inside, good, bad, e⟩ | ⟨inside, good, good', e⟩
  · exact ⟨_, e, .fault (firstFault_operand_past past)⟩
  · exact ⟨_, e, .fault ((firstFault_operand_inside inside).trans (firstFault_operand_past past))⟩
  · exact ⟨_, e, .fault ((firstFault_operands_inside inside).trans (firstFault_register_bad bad))⟩
  · refine ⟨_, e, .fault ?_⟩
    rw [expectedFault, firstFault_operands_inside inside, firstFault_register_good good, firstFault_register_bad bad]
  · refine ⟨_, e, .noFault ?_ rfl⟩
    rw [expectedFault, firstFault_operands_inside inside, firstFault_register_good good,
      firstFault_register_good good', firstFault]

/-- Every instruction answers a next state, and the table says which fault it ends with. -/
theorem exec_faultOutcome (i : Instr) : ∃ t, exec i s = .next t ∧ FaultOutcome s i t := by
  cases i with
  | hlt => exact ⟨_, execHlt_eq s, .noFault rfl rfl⟩
  | push r => exact execPush_faultOutcome s r
  | pop r => exact execPop_faultOutcome s r
  | prn r => exact execPrn_faultOutcome s r
  | jmp r => exact execJmp_faultOutcome s r rfl
  | jne r => exact execJne_faultOutcome s r
  | jeq r => exact execJeq_faultOutcome s r
  | ldi r imm => exact execLdi_faultOutcome s r imm
  | mul ra rb => exact execMul_faultOutcome s ra rb
  | cmp ra rb => exact execCmp_faultOutcome s ra rb

end

/-- The inversion of `exec`, by the table. -/
theorem FaultOutcome.of_exec {i : Instr} {s t : State} (h : exec i s = .next t) : FaultOutcome s i t := by
  obtain ⟨_, e, outcome⟩ := exec_faultOutcome s i
  cases e.symm.trans h
  exact outcome

/-! ### The latch after an instruction, and what is left of the instruction -/

/-- With nothing latched before, the latch holds the fault of the table. -/
theorem FaultOutcome.fault_eq {i : Instr} {s t : State} (outcome : FaultOutcome s i t) (unlatched : s.fault = none) :
    t.fault = expectedFault i s := by
  cases outcome with
  | noFault free kept => rw [kept, unlatched, free]
  | fault row | pushFault row | popFault row => simp [row, unlatched]

/-- Settles O31: every instruction's outcomes in the order in which it tests for them are the rows of the table in the
order of R118. -/
theorem faultsAreThoseOfTheTable : Obligations.FaultsAreThoseOfTheTable := by
  intro i s unlatched
  obtain ⟨t, e, outcome⟩ := exec_faultOutcome s i
  exact ⟨t, e, outcome.fault_eq unlatched⟩

/-- Settles O32: a fault is taken in the state the instruction began in, or after one register write of PUSH or POP. -/
theorem faultLeavesPcAndAtMostOneRegister : Obligations.FaultLeavesPcAndAtMostOneRegister := by
  intro i s t unlatched e latched
  cases FaultOutcome.of_exec e with
  | noFault _ kept => exact absurd (kept.trans unlatched) latched
  | fault => exact ⟨rfl, rfl, rfl, ⟨rfl, rfl⟩, rfl, .inl rfl⟩
  | @pushFault r _ _ room bad =>
    refine ⟨rfl, rfl, rfl, ⟨rfl, rfl⟩, rfl, .inr (.inl ⟨r, rfl, bad, ?_, ?_⟩)⟩
    · rw [State.takeFault_sp, State.setX_sp_self, Byte.int_sub_one room]
    · exact (RegsKeptBut.refl _ s).setX_right (by simp) _
  | @popFault r _ _ good full =>
    refine ⟨rfl, rfl, rfl, ⟨rfl, rfl⟩, rfl, .inr (.inr ⟨r, rfl, good, ?_, full, ?_⟩)⟩
    · rw [State.takeFault_x, State.setX_x, if_pos rfl]
    · exact (RegsKeptBut.refl _ s).setX_right (by simp) _

end Sys2Proof.Machine
end

section
/-! PROOF. The snapshot (R127): the byte of each address that exists, and none past the end of RAM (D23). -/

namespace Sys2Proof.Machine

section
variable {s : State} {a : Nat}

theorem accessByte_of_lt (h : a < 256) : s.accessByte a = some (s.ram.peek a) := by
  rw [State.accessByte, s.ram.read_nat h]

theorem accessByte_of_size_le (h : 256 ≤ a) : s.accessByte a = none := by
  rw [State.accessByte, s.ram.read_of_not_valid (not_valid_ram h)]

end

theorem snapshot_regs_getElem (s : State) {k : Nat} (hk : k < 8) : s.snapshot.regs[k]? = some (s.x k) := by
  simp [State.snapshot, hk]

theorem snapshot_nextBytes_getElem (s : State) {k : Nat} (hk : k < 3) :
    s.snapshot.nextBytes[k]? = some (s.accessByte (s.pc + k)) := by
  match k, hk with
  | 0, _ | 1, _ | 2, _ => rfl

/-- Settles O56: each entry is one accessor's answer, and a memory accessor answers by the guarded read. -/
theorem snapshotShowsTheState : Obligations.SnapshotShowsTheState := by
  refine fun s => ⟨rfl, rfl, rfl, fun k hk => snapshot_regs_getElem s hk, rfl, fun k hk => ?_⟩
  rw [snapshot_nextBytes_getElem s hk]
  exact ⟨fun inside => congrArg some (accessByte_of_lt inside), fun past => congrArg some (accessByte_of_size_le past)⟩

end Sys2Proof.Machine
end

section
/-! PROOF. The ends of a run (R136): what one step makes of a RUNNING machine, and a run as its first step and the run
after it. -/

namespace Sys2Proof.Machine

/-! ### Status and DIAG after an instruction -/

theorem ExecEffect.diag_eq {i : Instr} {s t : State} (effect : ExecEffect s i t) : t.diag = s.diag := by
  cases effect <;> rfl

/-- Only HLT writes RUNNING: CMP's write of FL keeps bit 7 (R107). -/
theorem ExecEffect.running_eq {i : Instr} {s t : State} (effect : ExecEffect s i t) (hi : i ≠ .hlt) :
    t.running = s.running := by
  rcases effect.fl_cases with ⟨_, kept⟩ | ⟨rfl, _⟩ | ⟨_, _, va, vb, _, compared⟩
  · rw [State.running, kept]
    rfl
  · exact absurd rfl hi
  · rw [State.running, compared]
    exact getLsbD_flCompare_of_le s.fl va vb (by decide)

/-- HLT cannot fault, so it always ends the run (R89). -/
theorem ExecEffect.status_of_hlt {s t : State} (effect : ExecEffect s .hlt t) (unlatched : s.fault = none) :
    t.status = .halted := by
  cases effect with
  | fault hi => exact absurd rfl hi
  | hlt => exact status_halted.mpr ⟨(flClearRunning_bits s.fl).1, unlatched⟩
  | branch hi => cases hi

/-- A machine whose RUNNING flag is set runs, or is FAULTED (R27). -/
theorem status_of_running_set {s : State} (h : s.running = true) : s.status = .running ∨ s.status = .faulted := by
  by_cases unlatched : s.fault = none
  · exact .inl (status_running.mpr ⟨h, unlatched⟩)
  · exact .inr (status_faulted.mpr unlatched)

/-! ### The result of a run -/

/-- What a run from a RUNNING state `s` can have come to: RUNNING still, with nothing reported, or one of the three ends
of R136. -/
def RunResult (s t : State) : Prop :=
  (t.status = .running ∧ t.diag = s.diag) ∨ NormalEnd s t ∨ UnknownOpcodeEnd s t ∨ FaultEnd s t

section
variable {s u t : State} {op : Byte}

/-- The one step of a RUNNING machine is the last step of a run of that one step. -/
theorem lastStep_of_step (hs : s.status = .running) (fetched : s.ram.read s.pc = .ok op) (h : step s = .next t) :
    LastStep s s t op :=
  ⟨⟨0, rfl⟩, hs, fetched, h⟩

/-- A step in front of a run leaves its last step the last. -/
theorem LastStep.cons {v : State} (h : step s = .next u) (last : LastStep u v t op) : LastStep s v t op := by
  obtain ⟨⟨k, reached⟩, rest⟩ := last
  exact ⟨⟨k + 1, (run_succ k h).trans reached⟩, rest⟩

/-- A step that reports nothing, in front of a run, leaves the run's result. -/
theorem RunResult.cons (h : step s = .next u) (kept : u.diag = s.diag) (result : RunResult u t) : RunResult s t := by
  rcases result with ⟨running, diag⟩ | ⟨halted, diag, v, last⟩ | ⟨halted, v, op, last, unmapped, diag⟩ |
    ⟨faulted, running, diag⟩
  · exact .inl ⟨running, diag.trans kept⟩
  · exact .inr (.inl ⟨halted, diag.trans kept, v, last.cons h⟩)
  · exact .inr (.inr (.inl ⟨halted, v, op, last.cons h, unmapped, kept ▸ diag⟩))
  · exact .inr (.inr (.inr ⟨faulted, running, diag.trans kept⟩))

/-- One instruction of a run: HLT ends it, any other goes on or faults with RUNNING set. -/
theorem ExecEffect.runResult {i : Instr} (effect : ExecEffect (s.setIr i.opcode) i t) (hs : s.status = .running)
    (fetched : s.ram.read s.pc = .ok i.opcode) (h : step s = .next t) : RunResult s t := by
  obtain ⟨running, unlatched⟩ := status_running.mp hs
  have kept : t.diag = s.diag := effect.diag_eq
  by_cases hi : i = .hlt
  · subst hi
    exact .inr (.inl ⟨effect.status_of_hlt unlatched, kept, s, lastStep_of_step hs fetched h⟩)
  · have still : t.running = true := (effect.running_eq hi).trans running
    rcases status_of_running_set still with goes | faulted
    · exact .inl ⟨goes, kept⟩
    · exact .inr (.inr (.inr ⟨faulted, still, kept⟩))

/-- A run of one step, by the cases of a step. -/
theorem runResult_of_step (hs : s.status = .running) (h : step s = .next t) : RunResult s t := by
  rcases step_cases h with ⟨stopped, _⟩ | ⟨_, _, rfl⟩ | ⟨i, _, hp, hi, effect⟩ | ⟨_, hp, unmapped, _⟩
  · exact absurd hs stopped
  · exact .inr (.inr (.inr ⟨status_takeFault s _, (status_running.mp hs).1, rfl⟩))
  · have opcode := opcode_of_assemble hi
    exact (opcode ▸ effect).runResult hs (opcode ▸ s.ram.read_nat hp) h
  · have fetched := s.ram.read_nat hp
    obtain ⟨_, e, reported, halted, _⟩ := unmappedOpcodeReportsAndHalts s _ hs fetched unmapped
    cases e.symm.trans h
    exact .inr (.inr (.inl ⟨halted, s, _, lastStep_of_step hs fetched h, unmapped, reported⟩))

/-- A run that is RUNNING still has reported nothing: a report halts (R83). -/
theorem RunResult.diag_eq_of_running (result : RunResult s t) (running : t.status = .running) : t.diag = s.diag := by
  rcases result with ⟨_, kept⟩ | ⟨_, kept, _⟩ | ⟨halted, _⟩ | ⟨_, _, kept⟩
  · exact kept
  · exact kept
  · cases running.symm.trans halted
  · exact kept

end

/-- Settles O44, by induction on the number of steps: the first step has ended the run, which then stays as it is, or the
machine is RUNNING and the rest of the run gives the result. -/
theorem runEndsInOneOfThreeWays : Obligations.RunEndsInOneOfThreeWays := by
  intro n
  induction n with
  | zero => exact fun s hs => ⟨s, rfl, .inl ⟨hs, rfl⟩⟩
  | succ n ih =>
    intro s hs
    obtain ⟨u, h⟩ := exists_step s
    have first := runResult_of_step hs h
    rw [run_succ n h]
    by_cases hu : u.status = .running
    · obtain ⟨t, reached, result⟩ := ih u hu
      exact ⟨t, reached, RunResult.cons h (first.diag_eq_of_running hu) result⟩
    · exact ⟨u, run_of_not_running hu n, first⟩

end Sys2Proof.Machine
end

section
/-! PROOF. The external events load, run start and launch (R130 to R135): how far the loader comes, what RAM then holds,
and that everything else is as before. -/

namespace Sys2Proof.Machine

/-! ### Run start (R133) -/

theorem status_runStart_of_halted {s : State} (h : s.status = .halted) : s.runStart.status = .running := by
  rw [runStart_of_halted h]
  exact status_running.mpr ⟨(flSetRunning_bits s.fl).1, (status_halted.mp h).2⟩

/-- Run start writes FL and nothing else. -/
theorem runStart_eq_setFl (s : State) : ∃ fl, s.runStart = s.setFl fl := by
  by_cases h : s.status = .halted
  · exact ⟨_, runStart_of_halted h⟩
  · exact ⟨s.fl, runStart_of_not_halted h⟩

/-- Settles O54: the write of FL sets bit 7 alone, and is the only one. -/
theorem runStartSetsRunningOnly : Obligations.RunStartSetsRunningOnly := by
  intro s
  refine ⟨fun h => ⟨status_runStart_of_halted h, ?_⟩, runStart_of_not_halted, ?_⟩
  · rw [runStart_of_halted h]
    exact (flSetRunning_bits s.fl).2
  · obtain ⟨fl, e⟩ := runStart_eq_setFl s
    rw [e]
    exact ⟨rfl, rfl, rfl, ⟨rfl, rfl⟩, rfl, rfl⟩

/-! ### The loader (R131, R132) -/

/-- A program the loader takes whole: at most 256 values, each of them a byte. -/
abbrev Loadable (bytes : List Int) : Prop := bytes.length ≤ 256 ∧ ∀ b ∈ bytes, 0 ≤ b ∧ b ≤ 255

/-- RAM holds the values at the addresses from 0, and 0 at every later address. -/
def HoldsFromZero (bytes : List Int) (m : Memory .ram) : Prop :=
  (∀ (n : Nat) (b : Int), bytes[n]? = some b → ∃ v : Byte, m.read n = .ok v ∧ v.int = b) ∧
  (∀ n : Nat, bytes.length ≤ n → n < 256 → m.read n = .ok 0)

theorem holdsFromZero_clear (m : Memory .ram) : HoldsFromZero [] m.clear :=
  ⟨nofun, fun _ _ inside => m.clear.read_nat inside⟩

/-- The write of one more value, behind those that RAM holds. -/
theorem HoldsFromZero.write {bytes : List Int} {b : Int} {m : Memory .ram} (holds : HoldsFromZero bytes m)
    (room : bytes.length < 256) (hb : 0 ≤ b ∧ b ≤ 255) :
    ∃ m', m.write bytes.length b = .ok m' ∧ HoldsFromZero (bytes ++ [b]) m' := by
  obtain ⟨held, zero⟩ := holds
  obtain ⟨m', written, readBack, kept⟩ := m.write_then_read (valid_ram room) hb
  have other : ∀ n : Nat, n ≠ bytes.length → m'.read n = m.read n := fun n hn => kept n (by omega)
  refine ⟨m', written, fun n c hc => ?_, fun n hn inside => ?_⟩
  · rcases Nat.lt_trichotomy n bytes.length with below | rfl | above
    · rw [List.getElem?_append_left below] at hc
      rw [other n (Nat.ne_of_lt below)]
      exact held n c hc
    · rw [List.getElem?_concat_length] at hc
      cases hc
      exact readBack
    · have past : (bytes ++ [b]).length ≤ n := by rw [List.length_append, List.length_singleton]; exact above
      rw [List.getElem?_eq_none past] at hc
      cases hc
  · rw [List.length_append, List.length_singleton] at hn
    rw [other n (by omega)]
    exact zero n (by omega) inside

/-- The loader writes the good values behind those that RAM holds already and goes on behind them. -/
theorem loadBytes_append_of_loadable {done good : List Int} {m : Memory .ram} (holds : HoldsFromZero done m)
    (h : Loadable (done ++ good)) (rest : List Int) :
    ∃ m', HoldsFromZero (done ++ good) m' ∧
      loadBytes done.length (good ++ rest) m = loadBytes (done ++ good).length rest m' := by
  induction good generalizing done m with
  | nil => exact ⟨m, by rw [List.append_nil]; exact holds, by rw [List.append_nil, List.nil_append]⟩
  | cons b good ih =>
    obtain ⟨len, bytes⟩ := h
    have room : done.length < 256 := by
      rw [List.length_append, List.length_cons] at len
      omega
    have hb : 0 ≤ b ∧ b ≤ 255 := bytes b (List.mem_append_right _ List.mem_cons_self)
    obtain ⟨m₁, written, holds₁⟩ := holds.write room hb
    rw [List.append_cons] at len bytes ⊢
    obtain ⟨m', holds', loaded⟩ := ih holds₁ ⟨len, bytes⟩
    rw [List.length_append, List.length_singleton] at loaded
    exact ⟨m', holds', by rw [List.cons_append, ← loaded]; simp only [loadBytes, written]⟩

theorem loadBytes_of_loadable {good : List Int} (h : Loadable good) (rest : List Int) (m : Memory .ram) :
    ∃ m', HoldsFromZero good m' ∧ loadBytes 0 (good ++ rest) m.clear = loadBytes good.length rest m' :=
  loadBytes_append_of_loadable (holdsFromZero_clear m) h rest

/-- The loader's error at an index (R132); at index 256 the address check comes first (D27). -/
def loaderError (index : Nat) (v : Int) : Fault :=
  if index = 256 then .outOfBounds .ram 256 else .invalidByteValue .ram index v

theorem loadBytes_of_bad {index : Nat} {v : Int} (inside : index ≤ 256) (bad : index = 256 ∨ v < 0 ∨ 255 < v)
    (rest : List Int) (m : Memory .ram) : loadBytes index (v :: rest) m = (m, some (loaderError index v)) := by
  have failed : m.write index v = .error (loaderError index v) := by
    unfold loaderError
    split
    · next full => subst full; exact m.write_of_not_valid (not_valid_ram (Nat.le_refl _))
    · exact m.write_of_bad_value (valid_ram (by omega)) (by omega)
  simp only [loadBytes, failed]

/-- One more value makes a good sequence bad by its index or by itself. -/
theorem bad_of_not_loadable_append {good : List Int} {v : Int} (loadable : Loadable good)
    (h : ¬ Loadable (good ++ [v])) : good.length = 256 ∨ v < 0 ∨ 255 < v := by
  obtain ⟨len, bytes⟩ := loadable
  refine Decidable.byContradiction fun fits => h ⟨?_, fun c hc => ?_⟩
  · rw [List.length_append, List.length_singleton]
    omega
  · rcases List.mem_append.mp hc with old | new
    · exact bytes c old
    · cases List.mem_singleton.mp new
      omega

/-- A sequence the loader does not take whole, of which it has taken the front, fails at a first index: 256, or that of a
first bad value. -/
theorem exists_first_bad {done bytes : List Int} (front : Loadable done) (h : ¬ Loadable (done ++ bytes)) :
    ∃ good v rest, done ++ bytes = good ++ v :: rest ∧ Loadable good ∧ (good.length = 256 ∨ v < 0 ∨ 255 < v) := by
  induction bytes generalizing done with
  | nil => exact absurd (by rw [List.append_nil]; exact front) h
  | cons b bytes ih =>
    by_cases longer : Loadable (done ++ [b])
    · rw [List.append_cons] at h ⊢
      exact ih longer h
    · exact ⟨done, b, bytes, rfl, front, bad_of_not_loadable_append front longer⟩

theorem loadable_nil : Loadable [] := ⟨Nat.zero_le _, nofun⟩

/-! ### Load (R131, R132) -/

theorem load_of_halted {s : State} (h : s.status = .halted) (bytes : List Int) :
    s.load bytes = (s.setRam (loadBytes 0 bytes s.ram.clear).1, (loadBytes 0 bytes s.ram.clear).2) := by
  simp only [State.load, h]

theorem load_of_loadable {s : State} {bytes : List Int} (h : s.status = .halted) (loadable : Loadable bytes) :
    ∃ m, s.load bytes = (s.setRam m, none) ∧ HoldsFromZero bytes m := by
  obtain ⟨m, holds, loaded⟩ := loadBytes_of_loadable loadable [] s.ram
  rw [List.append_nil] at loaded
  exact ⟨m, by rw [load_of_halted h, loaded, loadBytes], holds⟩

theorem load_of_bad {s : State} {good : List Int} {v : Int} (h : s.status = .halted) (loadable : Loadable good)
    (bad : good.length = 256 ∨ v < 0 ∨ 255 < v) (rest : List Int) :
    ∃ m, s.load (good ++ v :: rest) = (s.setRam m, some (loaderError good.length v)) ∧ HoldsFromZero good m := by
  obtain ⟨m, holds, loaded⟩ := loadBytes_of_loadable loadable (v :: rest) s.ram
  exact ⟨m, by rw [load_of_halted h, loaded, loadBytes_of_bad loadable.1 bad], holds⟩

/-- Settles O52: the load replaces RAM by one that holds the values. -/
theorem loadFillsRamFromZero : Obligations.LoadFillsRamFromZero := by
  intro s bytes h len good
  obtain ⟨m, loaded, held, zero⟩ := load_of_loadable h ⟨len, good⟩
  exact ⟨s.setRam m, loaded, held, zero, rfl, ⟨rfl, rfl, rfl⟩, ⟨rfl, rfl⟩, fun _ _ _ => rfl⟩

/-- Settles O53: the load replaces RAM by one that holds the good values, and the error goes to the loader. -/
theorem loadErrorsAreTheLoaders : Obligations.LoadErrorsAreTheLoaders := by
  intro s good rest v h len bytes bad
  obtain ⟨m, loaded, held, zero⟩ := load_of_bad h ⟨len, bytes⟩ bad rest
  exact ⟨s.setRam m, loaded, held, zero, h, rfl, ⟨rfl, rfl, rfl⟩, ⟨rfl, rfl⟩, fun _ _ _ => rfl⟩

/-! ### Launch (R135) -/

theorem launch_of_loaded {bytes : List Int} {s : State} (h : State.reset.load bytes = (s, none)) :
    State.launch bytes = .next s.runStart := by
  simp only [State.launch, h]

theorem launch_of_load_error {bytes : List Int} {s : State} {f : Fault} (h : State.reset.load bytes = (s, some f)) :
    State.launch bytes = .refused (.runAfterFailedLoad f) := by
  simp only [State.launch, h]

/-- Settles O55: reset is HALTED, so the load acts, and run start acts on what it leaves. -/
theorem launchBootsOrRefuses : Obligations.LaunchBootsOrRefuses := by
  refine fun bytes => ⟨fun loadable => ?_, fun unloadable => ?_⟩
  · obtain ⟨m, loaded, held, _⟩ := load_of_loadable status_reset loadable
    have halted : (State.reset.setRam m).status = .halted := status_reset
    refine ⟨_, launch_of_loaded loaded, status_runStart_of_halted halted, ?_⟩
    rw [runStart_of_halted halted]
    have fl : flSetRunning State.reset.fl = 0x80 := by decide
    exact ⟨rfl, rfl, fl, held⟩
  · obtain ⟨good, v, rest, split, loadable, bad⟩ := exists_first_bad loadable_nil unloadable
    rw [List.nil_append] at split
    subst split
    obtain ⟨m, failed, _⟩ := load_of_bad status_reset loadable bad rest
    exact ⟨_, congrArg Prod.snd failed, launch_of_load_error failed⟩

end Sys2Proof.Machine
end
